-- ==== Sys2Proof/Word.lean ====
section
/-! DEFINITION. The data words of the QOI decoder: bytes and pixels. -/

namespace Sys2Proof

/-- A byte is 8 bits (R8). -/
abbrev Byte := BitVec 8

/-- A pixel: four unsigned 8-bit channels, a value that is copied and never aliased (R21). -/
structure Pixel where
  r : Byte
  g : Byte
  b : Byte
  a : Byte
  deriving DecidableEq, Repr

end Sys2Proof
end

