-- ==== Sys2Proof/Config.lean ====
section
/-! DEFINITION. The constants of the spec (R5), each a literal as R5 asks. The parameters R7 leaves open are
not here: LEN_W is unbounded (log entry 3) and OUT_CAP is a field of State (log entry 4). No free value exists
(R172). -/

namespace Sys2Proof.Config

/-- HEADER_LEN: bytes of the header record. -/
@[simp] def headerLen : Nat := 14
/-- MARKER_LEN: bytes of the end-of-stream marker. -/
@[simp] def markerLen : Nat := 8
/-- MIN_STREAM_LEN: the least legal stream length. -/
@[simp] def minStreamLen : Nat := 22
/-- MAGIC: "qoif" as a 32-bit big-endian integer. -/
def magic : BitVec 32 := 0x716F6966#32
/-- OP_RGB: first byte of a literal RGB. -/
def opRgb : Byte := 0xFE#8
/-- OP_RGBA: first byte of a literal RGBA. -/
def opRgba : Byte := 0xFF#8
/-- TAG_MASK: the mask that leaves the 2-bit tag in place. -/
def tagMask : Byte := 0xC0#8
/-- TAG_INDEX. -/
def tagIndex : Byte := 0x00#8
/-- TAG_DIFF. -/
def tagDiff : Byte := 0x40#8
/-- TAG_LUMA. -/
def tagLuma : Byte := 0x80#8
/-- TAG_RUN. -/
def tagRun : Byte := 0xC0#8
/-- PREV_INIT: the previous pixel at the start of a decode. -/
def prevInit : Pixel := ⟨0, 0, 0, 255⟩
/-- The pixel every slot of CACHE_INIT holds. -/
def zeroPixel : Pixel := ⟨0, 0, 0, 0⟩
/-- CACHE_INIT: {0,0,0,0} in all 64 slots. -/
def cacheInit : Vector Pixel 64 := Vector.replicate 64 zeroPixel
/-- DIFF_BIAS: subtracted from each 2-bit Diff field. -/
def diffBias : Int := 2
/-- LUMA_G_BIAS: subtracted from the 6-bit Luma green field. -/
def lumaGreenBias : Int := 32
/-- LUMA_RB_BIAS: subtracted from each 4-bit Luma nibble. -/
def lumaNibbleBias : Int := 8

end Sys2Proof.Config
end

