-- ==== Sys2Proof/Syntax.lean ====
section
/-! DEFINITION. The instruction set: the header record and the six opcodes (R70), every field with the width
the spec's format tables give it (R71, R74 to R79). -/

namespace Sys2Proof

/-- One constructor for each row of spec/opcode_table.json. Fields are the unsigned bit slices of the encoding;
biases are applied by the meanings (R80). -/
inductive Instr where
  /-- The 14-byte header record, as it stands in the stream (R71): the checks on magic and channels are part of
  its meaning (R90), so a record that fails them is still a term. -/
  | hdr (magic width height : BitVec 32) (channels colorspace : Byte)
  /-- Literal RGB (R74). -/
  | rgb (r g b : Byte)
  /-- Literal RGBA (R75). -/
  | rgba (r g b a : Byte)
  /-- Run (R79): the run length is `frun + 1`. -/
  | run (frun : BitVec 6)
  /-- Index (R76): the cache slot. -/
  | index (idx : BitVec 6)
  /-- Diff (R77): three 2-bit fields, each biased by 2. -/
  | diff (fr fg fb : BitVec 2)
  /-- Luma (R78): a green field biased by 32, two nibbles biased by 8. -/
  | luma (fdg : BitVec 6) (frg fbg : BitVec 4)
  deriving DecidableEq, Repr

/-- Where a record stands in the stream. The header is found by its position, not by a first byte (R84). -/
inductive Position where
  /-- Stream index 0, exactly once per decode. -/
  | header
  /-- The opcode region, from index 14. -/
  | opcode
  deriving DecidableEq, Repr

/-- The position at which an instruction can stand. -/
def Instr.position : Instr → Position
  | .hdr .. => .header
  | .rgb .. => .opcode
  | .rgba .. => .opcode
  | .run .. => .opcode
  | .index .. => .opcode
  | .diff .. => .opcode
  | .luma .. => .opcode

end Sys2Proof
end

