-- ==== Sys2Proof/WellFormed.lean ====
section
/-! DEFINITION. The legal values of instruction fields (R71, R79). Every other field may take every value of its
width (R82). -/

namespace Sys2Proof

/-- Legal channel counts: 3 (RGB) and 4 (RGBA) (R35, R71). -/
def legalChannels (c : Byte) : Bool := c == 3#8 || c == 4#8

/-- A legal term: the header's magic is "qoif" and its channel count 3 or 4 (R71); a run field is 0 to 61, for 62
and 63 are the bytes of RGB and RGBA (R79). -/
def Instr.wf : Instr → Bool
  | .hdr magic _ _ channels _ => magic == Config.magic && legalChannels channels
  | .rgb .. => true
  | .rgba .. => true
  | .run frun => decide (frun.toNat ≤ 61)
  | .index .. => true
  | .diff .. => true
  | .luma .. => true

end Sys2Proof
end

