-- ==== Sys2Proof/Decode.lean ====
section
/-! DEFINITION. The decoder, total on any bytes and rejecting by name; the encoder, written from the same format
tables; the opcode table's words; and the spec's assembler statements (R85, R86). -/

namespace Sys2Proof

/-! ### Decoder -/

/-- Why bytes are not a record. No opcode is illegal by its bits (R82): the one reason is that bytes are missing. -/
inductive DecodeError where
  /-- There are no bytes. -/
  | noByte
  /-- Fewer than the 14 bytes of a header record. -/
  | headerCut
  /-- Fewer operand bytes than the first byte asks for. -/
  | operandsMissing
  deriving DecidableEq, Repr

/-- The typed value the first byte is decoded into before acting (R115). -/
inductive FirstByte where
  | rgb
  | rgba
  | run (frun : BitVec 6)
  | index (idx : BitVec 6)
  | diff (fr fg fb : BitVec 2)
  | luma (fdg : BitVec 6)
  deriving DecidableEq, Repr

/-- Dispatch in the spec's order: the exact bytes first, then the tag, masked before it is compared (R73, R115,
R191). The last clause of R115 needs no test: the four tags are all there are. -/
def decodeFirst (b0 : Byte) : FirstByte :=
  if b0 = Config.opRgb then .rgb
  else if b0 = Config.opRgba then .rgba
  else if b0 &&& Config.tagMask = Config.tagRun then .run (b0.extractLsb' 0 6)
  else if b0 &&& Config.tagMask = Config.tagIndex then .index (b0.extractLsb' 0 6)
  else if b0 &&& Config.tagMask = Config.tagDiff then
    .diff (b0.extractLsb' 4 2) (b0.extractLsb' 2 2) (b0.extractLsb' 0 2)
  else .luma (b0.extractLsb' 0 6)

/-- Length of an opcode in bytes, a function of its first byte alone (R72). -/
def oplen (b0 : Byte) : Nat :=
  if b0 = Config.opRgb then 4
  else if b0 = Config.opRgba then 5
  else if b0 &&& Config.tagMask = Config.tagLuma then 2
  else 1

/-- The opcode at the head of the bytes, with the bytes after it (R74 to R79). -/
def decodeOpcode : List Byte → Except DecodeError (Instr × List Byte)
  | [] => .error .noByte
  | b0 :: rest =>
    match decodeFirst b0 with
    | .rgb =>
      match rest with
      | r :: g :: b :: rest => .ok (.rgb r g b, rest)
      | _ => .error .operandsMissing
    | .rgba =>
      match rest with
      | r :: g :: b :: a :: rest => .ok (.rgba r g b a, rest)
      | _ => .error .operandsMissing
    | .run frun => .ok (.run frun, rest)
    | .index idx => .ok (.index idx, rest)
    | .diff fr fg fb => .ok (.diff fr fg fb, rest)
    | .luma fdg =>
      match rest with
      | b1 :: rest => .ok (.luma fdg (b1.extractLsb' 4 4) (b1.extractLsb' 0 4), rest)
      | [] => .error .operandsMissing

/-- Four bytes as a big-endian 32-bit value, the byte at the lowest index first (R52). The one place that decides
the byte order. -/
def be32 (b0 b1 b2 b3 : Byte) : BitVec 32 := b0 ++ b1 ++ b2 ++ b3

/-- The header record at the head of the bytes (R71). -/
def decodeHeader : List Byte → Except DecodeError (Instr × List Byte)
  | m0 :: m1 :: m2 :: m3 :: w0 :: w1 :: w2 :: w3 :: h0 :: h1 :: h2 :: h3 :: c :: s :: rest =>
    .ok (.hdr (be32 m0 m1 m2 m3) (be32 w0 w1 w2 w3) (be32 h0 h1 h2 h3) c s, rest)
  | [] => .error .noByte
  | _ => .error .headerCut

/-- The record at a position of the stream (R84: the header always at index 0, opcodes from index 14). -/
def decode : Position → List Byte → Except DecodeError (Instr × List Byte)
  | .header => decodeHeader
  | .opcode => decodeOpcode

/-! ### Encoder -/

/-- The bytes of a 32-bit value, most significant first (R52). -/
def be32Bytes (v : BitVec 32) : List Byte :=
  [v.extractLsb' 24 8, v.extractLsb' 16 8, v.extractLsb' 8 8, v.extractLsb' 0 8]

/-- The bytes of an instruction, from the format tables R71 and R74 to R79. -/
def encode : Instr → List Byte
  | .hdr magic width height channels colorspace =>
    be32Bytes magic ++ be32Bytes width ++ be32Bytes height ++ [channels, colorspace]
  | .rgb r g b => [0xFE#8, r, g, b]
  | .rgba r g b a => [0xFF#8, r, g, b, a]
  | .run frun => [0b11#2 ++ frun]
  | .index idx => [0b00#2 ++ idx]
  | .diff fr fg fb => [0b01#2 ++ fr ++ fg ++ fb]
  | .luma fdg frg fbg => [0b10#2 ++ fdg, frg ++ fbg]

/-- Bytes of an instruction: 14 for the header (R71), and R72's lengths for the opcodes. -/
def Instr.size : Instr → Nat
  | .hdr .. => 14
  | .rgb .. => 4
  | .rgba .. => 5
  | .run .. => 1
  | .index .. => 1
  | .diff .. => 1
  | .luma .. => 2

/-! ### Words numbered as spec/opcode_table.json numbers them -/

/-- The first `n` bytes of a word whose bits 7..0 are the first byte, 15..8 the second, and so on. -/
def wordBytes (n w : Nat) : List Byte :=
  (List.range n).map fun k => BitVec.ofNat 8 (w >>> (8 * k))

/-- The position a table word stands at: a word that is empty, or longer than the opcode its first byte selects, is
the header, whose row gives its bits by position (R84; log entry 11). -/
def tablePosition (nbits w : Nat) : Position :=
  if 0 < nbits ∧ nbits ≤ 8 * oplen (BitVec.ofNat 8 (w % 2 ^ nbits)) then .opcode else .header

/-- The bytes of a table word, filled up with zeros to the longest record (14 bytes). -/
def tableBytes (nbits w : Nat) : List Byte := wordBytes 14 (w % 2 ^ nbits)

/-- What the decoder reads from a word of the opcode table. -/
def decodeTableWord (nbits w : Nat) : Option Instr :=
  match decode (tablePosition nbits w) (tableBytes nbits w) with
  | .ok (i, _) => some i
  | .error _ => none

/-! ### Assembler statements -/

/-- A statement of the spec's own textual syntax (R85, R86), operands as the text gives them: deltas are signed. -/
inductive Statement where
  | rgb (r g b : Nat)
  | rgba (r g b a : Nat)
  | index (i : Nat)
  | diff (dr dg db : Int)
  | luma (dg drg dbg : Int)
  | run (n : Nat)
  /-- `.qoif w, h, c, s` -/
  | qoif (w h c s : Nat)
  /-- `.end`: the marker. The block never reads its value. -/
  | endMarker
  /-- `.byte b, ...` -/
  | bytes (bs : List Nat)
  deriving DecidableEq, Repr

/-- Is every number a byte? -/
def allBytes (l : List Nat) : Bool := l.all fun n => decide (n ≤ 255)

/-- Is an integer in a closed range? -/
def inRange (lo hi x : Int) : Bool := decide (lo ≤ x) && decide (x ≤ hi)

/-- The bytes of a statement by the formulas of R85 and R86; none where an operand is out of the range they give. -/
def assemble : Statement → Option (List Byte)
  | .rgb r g b => if allBytes [r, g, b] then some ([0xFE, r, g, b].map (BitVec.ofNat 8)) else none
  | .rgba r g b a => if allBytes [r, g, b, a] then some ([0xFF, r, g, b, a].map (BitVec.ofNat 8)) else none
  | .index i => if i ≤ 63 then some [BitVec.ofNat 8 i] else none
  | .diff dr dg db =>
    if inRange (-2) 1 dr && inRange (-2) 1 dg && inRange (-2) 1 db then
      some [BitVec.ofInt 8 (0x40 + (dr + 2) * 16 + (dg + 2) * 4 + (db + 2))]
    else none
  | .luma dg drg dbg =>
    if inRange (-32) 31 dg && inRange (-8) 7 drg && inRange (-8) 7 dbg then
      some [BitVec.ofInt 8 (0x80 + (dg + 32)), BitVec.ofInt 8 ((drg + 8) * 16 + (dbg + 8))]
    else none
  | .run n => if 1 ≤ n ∧ n ≤ 62 then some [BitVec.ofNat 8 (0xC0 + (n - 1))] else none
  | .qoif w h c s =>
    if w < 2 ^ 32 ∧ h < 2 ^ 32 ∧ allBytes [c, s] then
      some ([0x71#8, 0x6F#8, 0x69#8, 0x66#8] ++ be32Bytes (BitVec.ofNat 32 w) ++ be32Bytes (BitVec.ofNat 32 h)
        ++ [BitVec.ofNat 8 c, BitVec.ofNat 8 s])
    else none
  | .endMarker => some [0, 0, 0, 0, 0, 0, 0, 1]
  | .bytes bs => if allBytes bs then some (bs.map (BitVec.ofNat 8)) else none

end Sys2Proof
end

