-- ==== Sys2Proof/Machine/State.lean ====
section
/-! DEFINITION. The state of the block (R20), plain data, and the state after hardware reset (R47, R180). -/

namespace Sys2Proof.Machine

/-- STATE, the phase register (R30). -/
inductive Phase where
  | idle
  | header
  | decode
  | done
  | error
  deriving DecidableEq, Repr

/-- The four error kinds (R31, R150). -/
inductive FormatError where
  | truncated
  | badMagic
  | invalidChannelCount
  | unexpectedEndOfStream
  deriving DecidableEq, Repr

/-- The registers the host can name (R40). CUR, NPIX, PXCNT, RUN, PREV and CACHE are not among them: the host
has no access to them in any phase. -/
inductive HostReg where
  | state
  | err
  | streamLen
  | magicValid
  | width
  | height
  | channels
  | colorspace
  | outLen
  deriving DecidableEq, Repr

/-- What the host can do to the block (R188). -/
inductive HostAction where
  /-- Hardware reset (R180). -/
  | reset
  /-- The START command (R182, R183). -/
  | start
  /-- Place a stream byte in IN (R186 step 1). -/
  | writeIn (addr : Nat) (b : Byte)
  /-- Write STREAM_LEN (R186 step 2). -/
  | writeLen (n : Nat)
  /-- Read a register (R40). -/
  | readReg (r : HostReg)
  /-- Read a byte of OUT (R40). -/
  | readOut (addr : Nat)
  deriving DecidableEq, Repr

/-- Whose turn it is: the host acts, or the block moves. Log entry 5. -/
inductive HostTurn where
  | act (a : HostAction)
  | pass
  deriving DecidableEq, Repr

/-- The state. The first group is the list of R20, the second the stream IN (R50), the third the model's own. -/
structure State where
  /-- STATE (R30). -/
  phase : Phase
  /-- ERR (R31): `none` is code 0, NONE. -/
  err : Option FormatError
  /-- STREAM_LEN (R32). Unbounded: log entry 3. -/
  streamLen : Nat
  /-- CUR, the cursor (R25). Unbounded: log entry 3. -/
  cur : Nat
  /-- MAGIC_VALID, the one flag (R28). -/
  magicValid : Bool
  /-- WIDTH (R33). -/
  width : BitVec 32
  /-- HEIGHT (R34). -/
  height : BitVec 32
  /-- CHANNELS (R35). -/
  channels : Byte
  /-- COLORSPACE (R36). -/
  colorspace : Byte
  /-- NPIX (R37). -/
  npix : BitVec 64
  /-- PXCNT (R38). -/
  pxcnt : BitVec 64
  /-- RUN, hidden: the repetitions still owed (R45). -/
  run : BitVec 6
  /-- PREV, the previous pixel (R21). -/
  prev : Pixel
  /-- CACHE, the seen-cache (R41). -/
  cache : Vector Pixel 64
  /-- OUT (R56): cells with rising addresses; an unlisted address holds no value (log entry 2), and bytes at and beyond
  OUT_LEN stay from earlier decodes (DESIGN CHOICE, log entry 16). -/
  outMem : List Host.Cell
  /-- OUT_LEN (R39). -/
  outLen : BitVec 66
  /-- IN (R50): cells with rising addresses; an unlisted address holds no value (log entry 2). -/
  inMem : List Host.Cell
  /-- OUT_CAP, an implementation parameter (R7, R59), never changed: log entry 4. `none` is unbounded. -/
  outCap : Option Nat
  /-- The turns still to come: log entry 5. When the list is empty the block moves. -/
  hostq : List HostTurn
  /-- The value the host's last read was given, none if it had no access: log entries 6 and 10. -/
  reply : Option Nat
  /-- Has the host written STREAM_LEN since hardware reset? Until it has, the value is unspecified and unreadable (R47,
  U9): log entry 17. -/
  lenWritten : Bool
  deriving DecidableEq, Repr

/-- Why the machine stops with a fault. The chip's four errors are not here: they are taken, as next states
(R155). -/
inductive Fault where
  /-- The block must read `IN[addr]` and there is no such byte: the host never placed it, or it lies at or beyond
  STREAM_LEN. Raised by the fetch of a HEADER or DECODE step. The host's duty 1 of R186 rules it out. Safe: the
  model stops where the chip would go on with an unspecified byte. -/
  | noStreamByte (addr : Nat)
  deriving DecidableEq, Repr

/-- Why the model gives a step no meaning. -/
inductive Refusal where
  /-- An instruction with no meaning yet, by its mnemonic. Raised by exec only. Safe. -/
  | notModelled (mnemonic : String)
  /-- The host breaks a duty of R187 while STATE is HEADER or DECODE: it writes IN or STREAM_LEN, or reads OUT, OUT_LEN or a
  header register. Raised by the host's turn. Safe ("a model refuses it rather than guess"). -/
  | hostWhileBusy
  /-- NPIX × CHANNELS exceeds OUT_CAP: "a model refuses to give it a meaning" (R59). Raised by HDR. Safe. -/
  | outputCapacity
  deriving DecidableEq, Repr

/-- The machine after hardware reset: STATE = IDLE and ERR = 0 as R180 says; every other register at the value log
entry 1 names, both memories with nothing listed (log entry 2), unbounded OUT (log entry 4), no host turn. -/
def State.reset : State where
  phase := .idle
  err := none
  streamLen := 0
  cur := 0
  magicValid := false
  width := 0
  height := 0
  channels := 0
  colorspace := 0
  npix := 0
  pxcnt := 0
  run := 0
  prev := Config.prevInit
  cache := Config.cacheInit
  outMem := []
  outLen := 0
  inMem := []
  outCap := none
  hostq := []
  reply := none
  lenWritten := false

end Sys2Proof.Machine
end

