-- ==== Sys2Proof/Machine/Flags.lean ====
section
/-! DEFINITION. Status: the codes of STATE and ERR, the busy test, and the one flag. There are no condition codes
and no opcode writes a flag (R29). -/

namespace Sys2Proof.Machine

/-- The 3-bit code of a phase (R30). Codes 5 to 7 never occur. -/
def Phase.code : Phase → BitVec 3
  | .idle => 0
  | .header => 1
  | .decode => 2
  | .done => 3
  | .error => 4

/-- The 3-bit code of an error kind (R31, R151 to R154). -/
def FormatError.code : FormatError → BitVec 3
  | .truncated => 1
  | .badMagic => 2
  | .invalidChannelCount => 3
  | .unexpectedEndOfStream => 4

/-- The 3-bit code in ERR: 0 when there is no error (R31). -/
def errCode : Option FormatError → BitVec 3
  | none => 0
  | some e => e.code

/-- The block is busy in HEADER and DECODE: START is ignored (R183) and the host's duties hold (R187). -/
def Phase.busy : Phase → Bool
  | .header => true
  | .decode => true
  | .idle => false
  | .done => false
  | .error => false

/-- MAGIC_VALID as the number the host reads (R28). -/
def flagCode (b : Bool) : Nat := if b then 1 else 0

end Sys2Proof.Machine
end

