-- ==== Sys2Proof/Machine/Operands.lean ====
section
/-! DEFINITION. Every operand form: how each opcode computes its pixel from the fields of the opcode, PREV and, for
INDEX, the cache; and the hash that names a cache slot. -/

namespace Sys2Proof.Machine

/-- The cache slot of a pixel (R140): exact sum, reduced modulo 64. -/
def pixelHash (p : Pixel) : BitVec 6 :=
  BitVec.ofNat 6 (p.r.toNat * 3 + p.g.toNat * 5 + p.b.toNat * 7 + p.a.toNat * 11)

/-- A channel plus a signed delta, reduced modulo 256 in both directions, silently (R147). -/
def addDelta (c : Byte) (d : Int) : Byte := BitVec.ofInt 8 ((c.toNat : Int) + d)

/-- RGB: the operand bytes, alpha from PREV (R125). -/
def rgbPixel (r g b : Byte) (prev : Pixel) : Pixel := ⟨r, g, b, prev.a⟩

/-- RGBA: the operand bytes; PREV is not read (R126). -/
def rgbaPixel (r g b a : Byte) : Pixel := ⟨r, g, b, a⟩

/-- `CACHE[i]` (R41). -/
def cacheRead (cache : Vector Pixel 64) (i : BitVec 6) : Pixel := cache[i.toNat]'(i.isLt)

/-- A 2-bit Diff field as a delta, −2 to +1 (R80). -/
def diffDelta (f : BitVec 2) : Int := (f.toNat : Int) - Config.diffBias

/-- DIFF: three independent deltas, alpha kept (R135, R137). -/
def diffPixel (fr fg fb : BitVec 2) (prev : Pixel) : Pixel :=
  ⟨addDelta prev.r (diffDelta fr), addDelta prev.g (diffDelta fg), addDelta prev.b (diffDelta fb), prev.a⟩

/-- The green delta of LUMA, −32 to +31 (R80). -/
def lumaGreenDelta (fdg : BitVec 6) : Int := (fdg.toNat : Int) - Config.lumaGreenBias

/-- A nibble of LUMA as a red or blue delta, relative to the green delta, −40 to +38 (R80). -/
def lumaDelta (fdg : BitVec 6) (f : BitVec 4) : Int :=
  ((f.toNat : Int) - Config.lumaNibbleBias) + lumaGreenDelta fdg

/-- LUMA: red and blue follow green, alpha kept (R136, R137). -/
def lumaPixel (fdg : BitVec 6) (frg fbg : BitVec 4) (prev : Pixel) : Pixel :=
  ⟨addDelta prev.r (lumaDelta fdg frg), addDelta prev.g (lumaGreenDelta fdg), addDelta prev.b (lumaDelta fdg fbg),
    prev.a⟩

end Sys2Proof.Machine
end

