-- ==== Sys2Proof/Machine/Ops.lean ====
section
/-! DEFINITION. The named operations over memories and registers: memory cells, the read primitive, Emit, the error
transition, START, the commit of a header, hardware reset. -/

namespace Sys2Proof.Machine

/-! ### Byte memories -/

/-- A byte memory: cells with strictly rising addresses. An unlisted address holds no value (log entry 2). -/
abbrev Memory := List Host.Cell

/-- The canonical form. -/
abbrev Memory.wf (m : Memory) : Prop := m.Pairwise fun x y => x.1 < y.1

/-- The byte at an address, if it has one. -/
def Memory.read : Memory → Nat → Option Byte
  | [], _ => none
  | (k, v) :: m, a => if a = k then some v else Memory.read m a

/-- A byte written at an address; the form is kept. -/
def Memory.write : Memory → Nat → Byte → Memory
  | [], a, b => [(a, b)]
  | (k, v) :: m, a, b =>
    if a < k then (a, b) :: (k, v) :: m
    else if a = k then (a, b) :: m
    else (k, v) :: Memory.write m a b

/-- Bytes written at an address and up. -/
def Memory.writeAll : Memory → Nat → List Byte → Memory
  | m, _, [] => m
  | m, a, b :: bs => Memory.writeAll (m.write a b) (a + 1) bs

/-! ### Reading IN -/

/-- LIMIT, the first index the decoder may not read (R110, R147). -/
def State.limit (s : State) : Nat := s.streamLen - Config.markerLen

/-- MemRead(addr, 1): defined for `addr + 1 <= STREAM_LEN` and a byte that was placed; no side effect (R53). -/
def memRead1 (s : State) (addr : Nat) : Option Byte :=
  if addr + 1 ≤ s.streamLen then Memory.read s.inMem addr else none

/-- MemRead(addr, 4): four bytes, big-endian (R52, R53). -/
def memRead4 (s : State) (addr : Nat) : Option (BitVec 32) :=
  match memRead1 s addr, memRead1 s (addr + 1), memRead1 s (addr + 2), memRead1 s (addr + 3) with
  | some b0, some b1, some b2, some b3 => some (be32 b0 b1 b2 b3)
  | _, _, _, _ => none

/-- The `n` bytes at an index and up, or the index of the first that is not there. -/
def fetchBytes (s : State) : Nat → Nat → Except Nat (List Byte)
  | _, 0 => .ok []
  | addr, n + 1 =>
    match memRead1 s addr with
    | none => .error addr
    | some b =>
      match fetchBytes s (addr + 1) n with
      | .error a => .error a
      | .ok bs => .ok (b :: bs)

/-! ### Emit -/

/-- `CACHE[i] <- p` (R141). -/
def cacheWrite (i : BitVec 6) (p : Pixel) (s : State) : State :=
  { s with cache := s.cache.set i.toNat p i.isLt }

/-- OutAppend(b): `MemWrite(OUT_LEN, 1, b); OUT_LEN <- OUT_LEN + 1` (R56). -/
def outAppend (b : Byte) (s : State) : State :=
  { s with outMem := Memory.write s.outMem s.outLen.toNat b, outLen := s.outLen + 1 }

/-- The channels of a pixel that go to OUT (R142): r, g, b, and a if CHANNELS = 4. -/
def appendPixel (p : Pixel) (s : State) : State :=
  let rgb := outAppend p.b (outAppend p.g (outAppend p.r s))
  let rgba := outAppend p.a rgb
  { s with
    outMem := if s.channels = 4#8 then rgba.outMem else rgb.outMem
    outLen := if s.channels = 4#8 then rgba.outLen else rgb.outLen }

/-- Emit(p), the whole pixel finalisation (R143): cache, OUT, PREV, PXCNT. -/
def emit (p : Pixel) (s : State) : State :=
  { appendPixel p (cacheWrite (pixelHash p) p s) with prev := p, pxcnt := s.pxcnt + 1 }

/-! ### The error transition, and the only way back -/

/-- `raise E` (R155): exactly STATE, ERR and OUT_LEN are written. The bytes appended before the error stay in `outMem`,
beyond OUT_LEN, where the spec leaves them unspecified (U11): DESIGN CHOICE, log entry 16. -/
def raise (e : FormatError) (s : State) : State :=
  { s with phase := .error, err := some e, outLen := 0 }

/-- The START step (R182): the initial state of every decode. It is the only way out of ERROR but reset: there is
no return from an error (R157). The bytes of an earlier decode stay in `outMem`, beyond OUT_LEN, where the spec leaves
them unspecified (R47, U11): DESIGN CHOICE, log entry 16. -/
def startDecode (s : State) : State :=
  { s with
    phase := .header
    err := none
    cur := 0
    magicValid := false
    width := 0
    height := 0
    channels := 0
    colorspace := 0
    npix := 0
    pxcnt := 0
    run := 0
    outLen := 0
    prev := Config.prevInit
    cache := Config.cacheInit }

/-- WIDTH × HEIGHT, exact in 64 bits (R37, R97). -/
def pixelTotal (width height : BitVec 32) : BitVec 64 := BitVec.ofNat 64 (width.toNat * height.toNat)

/-- The commit of a header (R99), all at once, and nothing else. -/
def commitHeader (width height : BitVec 32) (channels colorspace : Byte) (s : State) : State :=
  { s with
    magicValid := true
    width := width
    height := height
    channels := channels
    colorspace := colorspace
    npix := pixelTotal width height
    cur := Config.headerLen
    phase := .decode }

/-- Does an image of this size exceed OUT_CAP (R59)? -/
def exceedsCapacity (width height : BitVec 32) (channels : Byte) (cap : Option Nat) : Bool :=
  match cap with
  | none => false
  | some c => decide (c < width.toNat * height.toNat * channels.toNat)

/-- Hardware reset, in any state (R180). What R47 leaves unspecified takes the values of `State.reset` (log entries
1 and 2). The parameter OUT_CAP and what lies on the host's side stay. -/
def hardReset (s : State) : State :=
  { State.reset with outCap := s.outCap, hostq := s.hostq, reply := s.reply }

/-! ### What every opcode has in common -/

/-- CUR moved past the `n` bytes of an opcode (R25, R26), and the repetitions a run still owes (R45). -/
def advance (n : Nat) (owed : BitVec 6) (s : State) : State := { s with cur := s.cur + n, run := owed }

/-- An opcode of `n` bytes that emits `p` and leaves `owed` in RUN (R110, R116): UnexpectedEndOfStream before any
effect if it would reach past LIMIT (R113); otherwise CUR moves past it and the pixel is emitted. -/
def runOpcode (n : Nat) (p : Pixel) (owed : BitVec 6) (s : State) : Host.Outcome State Fault Refusal :=
  if s.cur + n > s.limit then .next (raise .unexpectedEndOfStream s)
  else .next (emit p (advance n owed s))

/-- The end of a decode (R114): STATE is written and nothing else. -/
def finish (s : State) : State := { s with phase := .done }

/-! ### The model's own fields -/

/-- The turns still to come (log entry 5). -/
def withTurns (q : List HostTurn) (s : State) : State := { s with hostq := q }

/-- What the host's read is given: a value, or none where it has no access (log entries 6 and 10). -/
def replyWith (v : Option Nat) (s : State) : State := { s with reply := v }

end Sys2Proof.Machine
end

