-- ==== Sys2Proof/Machine/Delta.lean ====
section
/-! DEFINITION. The delta opcodes DIFF and LUMA (R135, R136). -/

namespace Sys2Proof.Machine

/-- DIFF (R135): 1 byte, wrapping deltas of −2 to +1. -/
def execDiff (fr fg fb : BitVec 2) (s : State) : Host.Outcome State Fault Refusal :=
  runOpcode 1 (diffPixel fr fg fb s.prev) s.run s

/-- LUMA (R136): 2 bytes, red and blue deltas relative to the green one. -/
def execLuma (fdg : BitVec 6) (frg fbg : BitVec 4) (s : State) : Host.Outcome State Fault Refusal :=
  runOpcode 2 (lumaPixel fdg frg fbg s.prev) s.run s

end Sys2Proof.Machine
end

