-- ==== Sys2Proof/Machine/Header.lean ====
section
/-! DEFINITION. The header record: HDR (R90 to R101). -/

namespace Sys2Proof.Machine

/-- HDR, the HEADER step on a record (R90): the checks in the order length, magic, channel count (R98), each taking
its error (R100); then, where the image fits OUT_CAP (R59), the commit (R99). -/
def execHdr (magic width height : BitVec 32) (channels colorspace : Byte) (s : State) :
    Host.Outcome State Fault Refusal :=
  if s.streamLen < Config.minStreamLen then .next (raise .truncated s)
  else if magic ≠ Config.magic then .next (raise .badMagic s)
  else if channels ≠ 3#8 ∧ channels ≠ 4#8 then .next (raise .invalidChannelCount s)
  else if exceedsCapacity width height channels s.outCap then .refused .outputCapacity
  else .next (commitHeader width height channels colorspace s)

end Sys2Proof.Machine
end

