-- ==== Sys2Proof/Machine/IndexRun.lean ====
section
/-! DEFINITION. The opcodes INDEX and RUN (R130, R131), and the continuation of a run (R111). -/

namespace Sys2Proof.Machine

/-- INDEX (R130): the pixel of the named slot, as the previous step left the cache (R190). -/
def execIndex (idx : BitVec 6) (s : State) : Host.Outcome State Fault Refusal :=
  runOpcode 1 (cacheRead s.cache idx) s.run s

/-- RUN (R131): the first of `frun + 1` copies of PREV; RUN holds the repetitions owed after it. -/
def execRun (frun : BitVec 6) (s : State) : Host.Outcome State Fault Refusal :=
  runOpcode 1 s.prev frun s

/-- A run continuation (R111): one more copy of PREV, one repetition less, nothing fetched. -/
def continueRun (s : State) : State := emit s.prev (advance 0 (s.run - 1) s)

end Sys2Proof.Machine
end

