-- ==== Sys2Proof/Machine/Literal.lean ====
section
/-! DEFINITION. The literal opcodes RGB and RGBA (R125, R126). -/

namespace Sys2Proof.Machine

/-- RGB (R125): 4 bytes, alpha from PREV. -/
def execRgb (r g b : Byte) (s : State) : Host.Outcome State Fault Refusal :=
  runOpcode 4 (rgbPixel r g b s.prev) s.run s

/-- RGBA (R126): 5 bytes, for both channel counts (R84). -/
def execRgba (r g b a : Byte) (s : State) : Host.Outcome State Fault Refusal :=
  runOpcode 5 (rgbaPixel r g b a) s.run s

end Sys2Proof.Machine
end

