-- ==== Sys2Proof/Machine/HostPort.lean ====
section
/-! DEFINITION. The host's side of the block: what it may read and write in which phase (R40), the effect of each of
its actions (R188), and the result of a decode as the host sees it (R156, R172). -/

namespace Sys2Proof.Machine

/-- May the host read this register now? The rows of R40's table, and for STREAM_LEN what R47, D18 and R156 say of its
"R" entries: while busy STATE and ERR only, in DONE and ERROR the registers D18 and R156 list, and in IDLE only a value
the host has written (log entry 17). -/
def hostMayRead (s : State) : HostReg → Bool
  | .state => true
  | .err => true
  | .streamLen => s.phase == .idle && s.lenWritten
  | .magicValid => s.phase == .done
  | .width => s.phase == .done
  | .height => s.phase == .done
  | .channels => s.phase == .done
  | .colorspace => s.phase == .done
  | .outLen => s.phase == .done || s.phase == .error

/-- The value of a host register, as a number. -/
def hostRegValue (s : State) : HostReg → Nat
  | .state => s.phase.code.toNat
  | .err => (errCode s.err).toNat
  | .streamLen => s.streamLen
  | .magicValid => flagCode s.magicValid
  | .width => s.width.toNat
  | .height => s.height.toNat
  | .channels => s.channels.toNat
  | .colorspace => s.colorspace.toNat
  | .outLen => s.outLen.toNat

/-- The registers the host has the duty not to read while the block is busy: OUT_LEN and the header registers (R187). -/
def hostResultReg : HostReg → Bool
  | .state => false
  | .err => false
  | .streamLen => false
  | .magicValid => true
  | .width => true
  | .height => true
  | .channels => true
  | .colorspace => true
  | .outLen => true

/-- What the host gets of a register: its value, or none where it has no access (R40; log entry 10). -/
def hostRegRead (s : State) (r : HostReg) : Option Nat :=
  if hostMayRead s r then some (hostRegValue s r) else none

/-- A register read (R40): no effect on the block, and what the host gets. While the block is busy a read of a result
breaks a duty (R187). -/
def hostReadReg (r : HostReg) (s : State) : Host.Outcome State Fault Refusal :=
  if s.phase.busy ∧ hostResultReg r then .refused .hostWhileBusy else .next (replyWith (hostRegRead s r) s)

/-- The byte of OUT the host reads at an index: below OUT_LEN and in DONE only (R40), none elsewhere (log entry 10). -/
def hostOutByte (s : State) (addr : Nat) : Option Byte :=
  if s.phase = .done ∧ addr < s.outLen.toNat then Memory.read s.outMem addr else none

/-- A read of a byte of OUT (R40): no effect on the block. While the block is busy it breaks a duty (R187). -/
def hostReadOut (addr : Nat) (s : State) : Host.Outcome State Fault Refusal :=
  if s.phase.busy then .refused .hostWhileBusy
  else .next (replyWith ((hostOutByte s addr).map BitVec.toNat) s)

/-- The host places a stream byte, while the block is not busy (R40, R186, R187). -/
def hostWriteIn (addr : Nat) (b : Byte) (s : State) : Host.Outcome State Fault Refusal :=
  if s.phase.busy then .refused .hostWhileBusy else .next { s with inMem := Memory.write s.inMem addr b }

/-- The host writes STREAM_LEN, while the block is not busy (R32, R40, R187). Every value is legal. -/
def hostWriteLen (n : Nat) (s : State) : Host.Outcome State Fault Refusal :=
  if s.phase.busy then .refused .hostWhileBusy else .next { s with streamLen := n, lenWritten := true }

/-- The START command: taken in IDLE, DONE and ERROR (R182), ignored in HEADER and DECODE (R183). -/
def hostStart (s : State) : Host.Outcome State Fault Refusal :=
  .next (if s.phase.busy then s else startDecode s)

/-- The effect of a host action on the block (R188). -/
def hostStep : HostAction → State → Host.Outcome State Fault Refusal
  | .reset, s => .next (hardReset s)
  | .start, s => hostStart s
  | .writeIn addr b, s => hostWriteIn addr b s
  | .writeLen n, s => hostWriteLen n s
  | .readReg r, s => hostReadReg r s
  | .readOut addr, s => hostReadOut addr s

/-- What a decode ended in, as the host sees it (R156, R172): the header and the bytes of OUT, or the error kind
alone. -/
inductive Result where
  | ok (width height : BitVec 32) (channels colorspace : Byte) (bytes : List (Option Byte))
  | failed (e : FormatError)
  deriving DecidableEq, Repr

/-- The result, once the decode has ended: in DONE and ERROR (R121), and none before. -/
def result (s : State) : Option Result :=
  match s.phase with
  | .done =>
    some (.ok s.width s.height s.channels s.colorspace
      ((List.range s.outLen.toNat).map fun a => Memory.read s.outMem a))
  | .error => s.err.map .failed
  | .idle => none
  | .header => none
  | .decode => none

end Sys2Proof.Machine
end

