-- ==== Sys2Proof/Machine/Loop.lean ====
section
/-! DEFINITION. The steps of the block: fetch, the HEADER step (R90), the DECODE step (R110), and whose turn it is.
`step` itself only calls `takeTurn`. -/

namespace Sys2Proof.Machine

/-- The HEADER step (R90): the length is tested before any byte is read (R91); then the 14 bytes at index 0 are the
header record, and HDR is run on them. -/
def headerStep (s : State) : Host.Outcome State Fault Refusal :=
  if s.streamLen < Config.minStreamLen then .next (raise .truncated s)
  else
    match fetchBytes s 0 Config.headerLen with
    | .error addr => .fault (.noStreamByte addr)
    | .ok bytes =>
      match decode .header bytes with
      | .error _ => .next (raise .truncated s)
      | .ok (i, _) => exec i s

/-- The fetch and the execution of one opcode: the last branch of R110. The fetch bound (R112) and the operand bound
(R113) are tested before the bytes are read: the marker is never read (R55). Bytes too few for the opcode are
UnexpectedEndOfStream as well; after the operand bound there are always enough. -/
def fetchAndRun (s : State) : Host.Outcome State Fault Refusal :=
  if s.cur ≥ s.limit then .next (raise .unexpectedEndOfStream s)
  else
    match memRead1 s s.cur with
    | none => .fault (.noStreamByte s.cur)
    | some b0 =>
      if s.cur + oplen b0 > s.limit then .next (raise .unexpectedEndOfStream s)
      else
        match fetchBytes s s.cur (oplen b0) with
        | .error addr => .fault (.noStreamByte addr)
        | .ok bytes =>
          match decode .opcode bytes with
          | .error _ => .next (raise .unexpectedEndOfStream s)
          | .ok (i, _) => exec i s

/-- The DECODE step (R110), its tests in the order of R117: completion, a run in progress, fetch and execute. -/
def decodeStep (s : State) : Host.Outcome State Fault Refusal :=
  if s.pxcnt = s.npix then .next (finish s)
  else if s.run ≠ 0 then .next (continueRun s)
  else fetchAndRun s

/-- A step of the block. In IDLE, DONE and ERROR no step is enabled and nothing changes (R121, R181; log entry 7). -/
def blockStep (s : State) : Host.Outcome State Fault Refusal :=
  match s.phase with
  | .header => headerStep s
  | .decode => decodeStep s
  | .idle => .next s
  | .done => .next s
  | .error => .next s

/-- One turn: the host's, or the block's (log entry 5). When no turn is listed the block moves. -/
def takeTurn (s : State) : Host.Outcome State Fault Refusal :=
  match s.hostq with
  | [] => blockStep s
  | .pass :: rest => blockStep (withTurns rest s)
  | .act a :: rest => hostStep a (withTurns rest s)

/-! ### Placing an instruction where the next step fetches it -/

/-- The block with a 1 × 1 image of 4 channels owed, as START and a HEADER step leave it. -/
def owingOnePixel (s : State) : State := commitHeader 1 1 4 0 (startDecode s)

/-- The block ready to fetch at a position, with the least change: already there, it stays; otherwise START is taken,
and for an opcode a header is committed too. No run is in progress and it is the block's turn. -/
def readyToFetch (p : Position) (s : State) : State :=
  match p with
  | .header => { (if s.phase = .header then s else startDecode s) with hostq := [] }
  | .opcode =>
    { (if s.phase = .decode ∧ s.pxcnt ≠ s.npix then s else owingOnePixel s) with run := 0, hostq := [] }

/-- The index a position is fetched from: 0 for the header (R90), CUR for an opcode (R25). -/
def fetchIndex (p : Position) (s : State) : Nat :=
  match p with
  | .header => 0
  | .opcode => s.cur

/-- Bytes placed at the position the next step fetches, the stream made long enough to hold them and the marker. -/
def placeBytes (p : Position) (bytes : List Byte) (s : State) : State :=
  { s with
    inMem := Memory.writeAll s.inMem (fetchIndex p s) bytes
    streamLen := max s.streamLen (fetchIndex p s + bytes.length + Config.markerLen) }

end Sys2Proof.Machine
end

