-- ==== Sys2Proof/Machine/Step.lean ====
section
/-! DEFINITION. The step of the machine, and an instruction placed where the next step fetches. -/

namespace Sys2Proof.Machine

/-- One step (R10): START and the other actions of the host, a HEADER step, or a DECODE step. -/
def step (s : State) : Host.Outcome State Fault Refusal := takeTurn s

/-- The state with a word of the opcode table stored where `step` fetches next. It stands for the host's load, for
START and, for an opcode, for a HEADER step: log entry 9. -/
def State.withFetchWord (s : State) (nbits w : Nat) : State :=
  placeBytes (tablePosition nbits w) (tableBytes nbits w) (readyToFetch (tablePosition nbits w) s)

end Sys2Proof.Machine
end

