-- ==== Sys2Proof/Safety.lean ====
section
/-! DEFINITION. What a good state and a good run are, in the terms the statements use. -/

namespace Sys2Proof.Machine

/-- The laws of the state that hold at every step boundary. -/
structure Lawful (s : State) : Prop where
  /-- IN is in its canonical form. -/
  inCanonical : Memory.wf s.inMem
  /-- OUT is in its canonical form. -/
  outCanonical : Memory.wf s.outMem
  /-- "ERR is nonzero exactly when STATE = ERROR" (R31). -/
  errExactlyInError : s.err ≠ none ↔ s.phase = .error
  /-- RUN is 0 to 61 (R45). -/
  runBound : s.run.toNat ≤ 61
  /-- Every slot holds {0,0,0,0} or a pixel that hashes to it (R43 a). -/
  cacheLaw : ∀ i : BitVec 6, cacheRead s.cache i = Config.zeroPixel ∨ pixelHash (cacheRead s.cache i) = i
  /-- In HEADER every register has the value START gave it (R182). -/
  headerFresh : s.phase = .header →
    s.cur = 0 ∧ s.magicValid = false ∧ s.width = 0 ∧ s.height = 0 ∧ s.channels = 0 ∧ s.colorspace = 0 ∧ s.npix = 0 ∧
      s.pxcnt = 0 ∧ s.run = 0 ∧ s.outLen = 0 ∧ s.prev = Config.prevInit ∧ s.cache = Config.cacheInit
  /-- In DECODE and DONE the header registers hold a header (R28, R35, R37) that fits OUT_CAP (R59). -/
  headerParsed : s.phase = .decode ∨ s.phase = .done →
    s.magicValid = true ∧ (s.channels = 3 ∨ s.channels = 4) ∧ s.npix.toNat = s.width.toNat * s.height.toNat ∧
      exceedsCapacity s.width s.height s.channels s.outCap = false
  /-- Byte accounting (R38, R39, R146), and every byte of OUT below OUT_LEN is there. -/
  accounting : s.phase = .decode ∨ s.phase = .done →
    s.pxcnt.toNat ≤ s.npix.toNat ∧ s.outLen.toNat = s.pxcnt.toNat * s.channels.toNat ∧
      ∀ a, a < s.outLen.toNat → (Memory.read s.outMem a).isSome = true
  /-- The cursor is past the header, and in DECODE not past LIMIT (R27; for DONE log entry 8). -/
  cursorBounds : s.phase = .decode ∨ s.phase = .done →
    14 ≤ s.cur ∧ (s.phase = .decode → 22 ≤ s.streamLen ∧ s.cur ≤ s.limit)
  /-- Before the first pixel PREV and CACHE are the initial ones and no run is owed; after it PREV is in its slot
  (R22, R42, R43 b and c). -/
  prevCached : s.phase = .decode ∨ s.phase = .done →
    (s.pxcnt = 0 → s.prev = Config.prevInit ∧ s.cache = Config.cacheInit ∧ s.run = 0) ∧
      (s.pxcnt ≠ 0 → cacheRead s.cache (pixelHash s.prev) = s.prev)
  /-- DONE means every pixel was emitted (R38, R114). -/
  doneComplete : s.phase = .done → s.pxcnt = s.npix
  /-- In ERROR there is no output (R155). -/
  errorEmpty : s.phase = .error → s.outLen = 0

/-- What Emit(p) does between two states, field by field (R141 to R144), and what it leaves alone. CUR and RUN are the
step's own and are not spoken of. -/
structure Emits (p : Pixel) (s t : State) : Prop where
  /-- `CACHE[hash(p)] <- p` (R141). -/
  slot : cacheRead t.cache (pixelHash p) = p
  /-- No other slot changes. -/
  otherSlots : ∀ j, j ≠ pixelHash p → cacheRead t.cache j = cacheRead s.cache j
  /-- `PREV <- p` (R144). -/
  prev : t.prev = p
  /-- `PXCNT <- PXCNT + 1` (R143). -/
  count : t.pxcnt = s.pxcnt + 1
  /-- OUT_LEN grows by the bytes appended (R142). -/
  length : t.outLen = s.outLen + (if s.channels = 4 then 4 else 3)
  /-- r is appended first. -/
  red : Memory.read t.outMem s.outLen.toNat = some p.r
  /-- then g -/
  green : Memory.read t.outMem (s.outLen + 1).toNat = some p.g
  /-- then b -/
  blue : Memory.read t.outMem (s.outLen + 2).toNat = some p.b
  /-- and a with 4 channels only (R142). -/
  alpha : s.channels = 4 → Memory.read t.outMem (s.outLen + 3).toNat = some p.a
  /-- Every other byte of OUT reads as before, those beyond OUT_LEN by the model's choice (log entry 16). -/
  otherBytes : ∀ k, k ≠ s.outLen.toNat → k ≠ (s.outLen + 1).toNat → k ≠ (s.outLen + 2).toNat →
    (s.channels = 4 → k ≠ (s.outLen + 3).toNat) → Memory.read t.outMem k = Memory.read s.outMem k
  /-- STATE, ERR, STREAM_LEN and IN are unchanged. -/
  control : t.phase = s.phase ∧ t.err = s.err ∧ t.streamLen = s.streamLen ∧ t.inMem = s.inMem
  /-- The flag, the header registers and NPIX are unchanged (R29, R101). -/
  header : t.magicValid = s.magicValid ∧ t.width = s.width ∧ t.height = s.height ∧ t.channels = s.channels ∧
    t.colorspace = s.colorspace ∧ t.npix = s.npix
  /-- The model's own fields are unchanged. -/
  own : t.outCap = s.outCap ∧ t.hostq = s.hostq ∧ t.reply = s.reply ∧ t.lenWritten = s.lenWritten

/-- The state after `raise e` (R155): exactly STATE, ERR and OUT_LEN are written (of the bytes of OUT that lie beyond
OUT_LEN from then on: log entry 16). -/
def failedWith (e : FormatError) (s : State) : State := { s with phase := .error, err := some e, outLen := 0 }

/-- It is the block's turn, and `u` is the state its step starts from: the turn is used up (log entry 5). -/
def BlockTurn (s u : State) : Prop :=
  (s.hostq = [] ∧ u = s) ∨ ∃ q, s.hostq = .pass :: q ∧ u = withTurns q s

/-- It is the host's turn to do `a`, and `u` is the state it acts on. -/
def HostDoes (a : HostAction) (s u : State) : Prop := ∃ q, s.hostq = .act a :: q ∧ u = withTurns q s

/-- An outcome with its next state changed. -/
def onNext (f : State → State) : Host.Outcome State Fault Refusal → Host.Outcome State Fault Refusal
  | .next s => .next (f s)
  | .fault r => .fault r
  | .refused r => .refused r

/-- Every byte of the stream was placed in IN: the host's duty 1 of R186. -/
def StreamPlaced (s : State) : Prop :=
  ∀ a, a < s.streamLen → (Memory.read s.inMem a).isSome = true

/-- The decode has ended: STATE is DONE or ERROR (R121). -/
def State.ended (s : State) : Prop := s.phase = .done ∨ s.phase = .error

/-- What the outside sees of an outcome: the result if the decode has ended, or the model's stop. -/
inductive Seen where
  | running
  | ended (r : Result)
  | fault (f : Fault)
  | refused (r : Refusal)
  deriving DecidableEq, Repr

/-- See `Seen`. -/
def seen : Host.Outcome State Fault Refusal → Seen
  | .next s =>
    match result s with
    | some r => .ended r
    | none => .running
  | .fault f => .fault f
  | .refused r => .refused r

/-- A number of steps of the machine, stopping at the first fault or refusal. -/
def steps (k : Nat) (s : State) : Host.Outcome State Fault Refusal := Host.Core.run Sys2Proof.core k s

end Sys2Proof.Machine
end

