-- ==== Sys2Proof/Certificates/Slice0/Obligations.lean ====
section
/-! DEFINITION. The statements about the model, each from a numbered rule of the spec. -/

open Sys2Proof Sys2Proof.Machine

/-! ### Encoding -/

/-- Encoding a well-formed instruction and decoding it at its position gives it back, whatever bytes follow. -/
def Obligations.DecodeEncodeRoundTrip : Prop :=
  ∀ (i : Instr) (rest : List Byte), i.wf = true → decode i.position (encode i ++ rest) = .ok (i, rest)

/-- Whatever is decoded is what the encoder writes: each record has one encoding. -/
def Obligations.EncodeDecodeInverse : Prop :=
  ∀ (q : Position) (bs after : List Byte) (i : Instr), decode q bs = .ok (i, after) →
    i.position = q ∧ encode i ++ after = bs

/-- The complete map of the first byte (R81), with the lengths. -/
def Obligations.FirstByteMap : Prop :=
  ∀ (b0 b1 b2 b3 b4 : Byte) (rest : List Byte),
    let bs := b0 :: b1 :: b2 :: b3 :: b4 :: rest
    (b0.toNat ≤ 0x3F → ∃ idx, decodeOpcode bs = .ok (.index idx, bs.drop 1) ∧ idx.toNat = b0.toNat) ∧
      (0x40 ≤ b0.toNat → b0.toNat ≤ 0x7F → ∃ fr fg fb, decodeOpcode bs = .ok (.diff fr fg fb, bs.drop 1) ∧
        b0.toNat = 0x40 + fr.toNat * 16 + fg.toNat * 4 + fb.toNat) ∧
      (0x80 ≤ b0.toNat → b0.toNat ≤ 0xBF → ∃ fdg frg fbg, decodeOpcode bs = .ok (.luma fdg frg fbg, bs.drop 2) ∧
        b0.toNat = 0x80 + fdg.toNat ∧ b1.toNat = frg.toNat * 16 + fbg.toNat) ∧
      (0xC0 ≤ b0.toNat → b0.toNat ≤ 0xFD → ∃ frun, decodeOpcode bs = .ok (.run frun, bs.drop 1) ∧
        b0.toNat = 0xC0 + frun.toNat ∧ frun.toNat ≤ 61) ∧
      (b0.toNat = 0xFE → decodeOpcode bs = .ok (.rgb b1 b2 b3, bs.drop 4)) ∧
      (b0.toNat = 0xFF → decodeOpcode bs = .ok (.rgba b1 b2 b3 b4, bs.drop 5))

/-- The bytes an opcode takes are a function of its first byte alone (R72). -/
def Obligations.OpcodeLengthByFirstByte : Prop :=
  ∀ (b0 : Byte) (rest after : List Byte) (i : Instr), decodeOpcode (b0 :: rest) = .ok (i, after) →
    rest.length + 1 = after.length +
      (if b0 = 0xFE#8 then 4 else if b0 = 0xFF#8 then 5 else if b0 &&& 0xC0#8 = 0x80#8 then 2 else 1)

/-- No first byte and no operand byte is illegal: an opcode is refused only where bytes are missing (R82). -/
def Obligations.OnlyMissingBytesAreRejected : Prop :=
  ∀ (b0 : Byte) (rest : List Byte),
    (∃ i after, decodeOpcode (b0 :: rest) = .ok (i, after)) ↔
      (if b0 = 0xFE#8 then 4 else if b0 = 0xFF#8 then 5 else if b0 &&& 0xC0#8 = 0x80#8 then 2 else 1)
        ≤ rest.length + 1

/-- MemRead(a, 4) is the big-endian value of the four bytes (R52), where all four can be read (R53). -/
def Obligations.FourByteReadIsBigEndian : Prop :=
  ∀ (s : State) (a : Nat) (v : BitVec 32), memRead4 s a = some v ↔
    ∃ b0 b1 b2 b3, memRead1 s a = some b0 ∧ memRead1 s (a + 1) = some b1 ∧ memRead1 s (a + 2) = some b2 ∧
      memRead1 s (a + 3) = some b3 ∧
      v.toNat = b0.toNat * 2 ^ 24 + b1.toNat * 2 ^ 16 + b2.toNat * 2 ^ 8 + b3.toNat

/-- Words written out from the format tables decode to the instructions they stand for. -/
def Obligations.WrittenOutWordsDecode : Prop :=
  decodeOpcode [0xFE#8, 1, 2, 3] = .ok (.rgb 1 2 3, []) ∧
    decodeOpcode [0xFF#8, 0, 0, 0, 0x7F#8] = .ok (.rgba 0 0 0 127, []) ∧
    decodeOpcode [0x3A#8] = .ok (.index 58, []) ∧ decodeOpcode [0xFD#8] = .ok (.run 61, []) ∧
    decodeOpcode [0x4A#8] = .ok (.diff 0 2 2, []) ∧ decodeOpcode [0xA2#8, 0x79#8] = .ok (.luma 34 7 9, [])

/-- The bytes of each assembler statement (R85, R86) decode to the instruction it names, with its operands. -/
def Obligations.AssembledStatementsDecode : Prop :=
  ∀ (bs rest : List Byte),
    (∀ r g b, assemble (.rgb r g b) = some bs → ∃ x y z, decodeOpcode (bs ++ rest) = .ok (.rgb x y z, rest) ∧
        x.toNat = r ∧ y.toNat = g ∧ z.toNat = b) ∧
      (∀ r g b a, assemble (.rgba r g b a) = some bs → ∃ x y z w,
        decodeOpcode (bs ++ rest) = .ok (.rgba x y z w, rest) ∧ x.toNat = r ∧ y.toNat = g ∧ z.toNat = b ∧ w.toNat = a) ∧
      (∀ k, assemble (.index k) = some bs → ∃ x, decodeOpcode (bs ++ rest) = .ok (.index x, rest) ∧ x.toNat = k) ∧
      (∀ dr dg db, assemble (.diff dr dg db) = some bs → ∃ x y z,
        decodeOpcode (bs ++ rest) = .ok (.diff x y z, rest) ∧ diffDelta x = dr ∧ diffDelta y = dg ∧
          diffDelta z = db) ∧
      (∀ dg drg dbg, assemble (.luma dg drg dbg) = some bs → ∃ x y z,
        decodeOpcode (bs ++ rest) = .ok (.luma x y z, rest) ∧ lumaGreenDelta x = dg ∧ lumaDelta x y = drg + dg ∧
          lumaDelta x z = dbg + dg) ∧
      (∀ n, assemble (.run n) = some bs → ∃ x, decodeOpcode (bs ++ rest) = .ok (.run x, rest) ∧ x.toNat + 1 = n) ∧
      (∀ w h c sp, assemble (.qoif w h c sp) = some bs → ∃ x y c' sp',
        decodeHeader (bs ++ rest) = .ok (.hdr Config.magic x y c' sp', rest) ∧ x.toNat = w ∧ y.toNat = h ∧
          c'.toNat = c ∧ sp'.toNat = sp)

/-! ### Arithmetic -/

/-- The hash (R140): the formula, and the same slot in any width of 6 bits or more with wrap-around. -/
def Obligations.HashInAnyWidth : Prop :=
  ∀ p : Pixel,
    (pixelHash p).toNat = (p.r.toNat * 3 + p.g.toNat * 5 + p.b.toNat * 7 + p.a.toNat * 11) % 64 ∧
      ∀ w, 6 ≤ w →
        pixelHash p = (p.r.setWidth w * 3 + p.g.setWidth w * 5 + p.b.setWidth w * 7 + p.a.setWidth w * 11).setWidth 6

/-- Channel sums wrap modulo 256 in both directions (R147, R8): no saturation. -/
def Obligations.ChannelSumsWrap : Prop :=
  ∀ (c : Byte) (d : Int), ((addDelta c d).toNat : Int) = ((c.toNat : Int) + d) % 256

/-- The unsigned 8-bit forms of DIFF and LUMA that R135 and R136 give. -/
def Obligations.DeltasInUnsignedBytes : Prop :=
  ∀ (prev : Pixel) (fr fg fb : BitVec 2) (fdg : BitVec 6) (frg fbg : BitVec 4),
    diffPixel fr fg fb prev =
        ⟨prev.r + fr.setWidth 8 + 254, prev.g + fg.setWidth 8 + 254, prev.b + fb.setWidth 8 + 254, prev.a⟩ ∧
      lumaPixel fdg frg fbg prev =
        ⟨prev.r + frg.setWidth 8 + fdg.setWidth 8 + 216, prev.g + fdg.setWidth 8 + 224,
          prev.b + fbg.setWidth 8 + fdg.setWidth 8 + 216, prev.a⟩

/-! ### Reset, START, phases -/

/-- Hardware reset, as the initial state and as an event in any state (R180). -/
def Obligations.ResetGivesIdleWithoutError : Prop :=
  State.reset.phase = .idle ∧ State.reset.err = none ∧
    ∀ s u, HostDoes .reset s u → ∃ t, step s = .next t ∧ t.phase = .idle ∧ t.err = none

/-- In IDLE, DONE and ERROR no step of the block is enabled: its turn changes nothing. (That such a turn is a next
state and not a stop is the model's choice, log entry 7.) -/
def Obligations.NoStepOutsideADecode : Prop :=
  ∀ s u, BlockTurn s u → (s.phase = .idle ∨ s.phase = .done ∨ s.phase = .error) → step s = .next u

/-- The START step (R182): enabled in IDLE, DONE and ERROR; every register it writes, and that it does not touch IN or
STREAM_LEN. -/
def Obligations.StartWritesInitialState : Prop :=
  ∀ s u, HostDoes .start s u → (s.phase = .idle ∨ s.phase = .done ∨ s.phase = .error) →
    ∃ t, step s = .next t ∧
      t.phase = .header ∧ t.err = none ∧ t.cur = 0 ∧ t.magicValid = false ∧ t.width = 0 ∧ t.height = 0 ∧
      t.channels = 0 ∧ t.colorspace = 0 ∧ t.npix = 0 ∧ t.pxcnt = 0 ∧ t.run = 0 ∧ t.outLen = 0 ∧
      t.prev = ⟨0, 0, 0, 255⟩ ∧ (∀ i, cacheRead t.cache i = ⟨0, 0, 0, 0⟩) ∧
      t.inMem = u.inMem ∧ t.streamLen = u.streamLen

/-- What START and hardware reset leave alone beyond the spec's words, all of it the model's choice: the capacity (log
entry 4), the turns still to come (log entry 5), the host's last read (log entry 6), and, at START, the bytes of OUT at
and beyond OUT_LEN (log entry 16) and the mark that STREAM_LEN was written (log entry 17). -/
def Obligations.StartAndResetKeepTheRest : Prop :=
  ∀ s u,
    (HostDoes .reset s u → ∃ t, step s = .next t ∧ t.outCap = u.outCap ∧ t.hostq = u.hostq ∧ t.reply = u.reply) ∧
      (HostDoes .start s u → (s.phase = .idle ∨ s.phase = .done ∨ s.phase = .error) →
        ∃ t, step s = .next t ∧ t.outMem = u.outMem ∧ t.outCap = u.outCap ∧ t.hostq = u.hostq ∧ t.reply = u.reply ∧
          t.lenWritten = u.lenWritten)

/-- A START command while busy changes nothing (R183). -/
def Obligations.StartIgnoredWhileBusy : Prop :=
  ∀ s u, HostDoes .start s u → (s.phase = .header ∨ s.phase = .decode) → step s = .next u

/-- The phase machine (R121): every step that answers a next state makes one of the moves of its table. That a turn of
the block outside a decode is a step at all is the model's choice (log entry 7). -/
def Obligations.PhaseMachine : Prop :=
  ∀ s t, step s = .next t →
    (∃ u, HostDoes .reset s u ∧ t.phase = .idle) ∨
      (∃ u, HostDoes .start s u ∧ s.phase ≠ .header ∧ s.phase ≠ .decode ∧ t.phase = .header) ∨
      (∃ u, HostDoes .start s u ∧ (s.phase = .header ∨ s.phase = .decode) ∧ t = u) ∨
      (∃ a u, HostDoes a s u ∧ a ≠ .reset ∧ a ≠ .start ∧ t.phase = s.phase) ∨
      (∃ u, BlockTurn s u ∧
        ((s.phase = .header ∧ (t.phase = .decode ∨ t.phase = .error)) ∨
          (s.phase = .decode ∧ s.pxcnt = s.npix ∧ t.phase = .done) ∨
          (s.phase = .decode ∧ s.pxcnt ≠ s.npix ∧ t.phase = .decode ∧ t.pxcnt = s.pxcnt + 1) ∨
          (s.phase = .decode ∧ s.pxcnt ≠ s.npix ∧ t.phase = .error) ∨
          ((s.phase = .idle ∨ s.phase = .done ∨ s.phase = .error) ∧ t = u)))

/-! ### The header -/

/-- A stream shorter than 22 bytes is Truncated, whatever its bytes (R91): nothing is assumed of IN. -/
def Obligations.ShortStreamIsTruncated : Prop :=
  ∀ s u, BlockTurn s u → s.phase = .header → s.streamLen < 22 → step s = .next (failedWith .truncated u)

/-- The HEADER step on the bytes of the stream (R90). That a decode over capacity (R59) is refused in this step, after
its three checks, is the model's choice (log entry 4). -/
def Obligations.HeaderStepOnTheStream : Prop :=
  ∀ s u m w h c sp, BlockTurn s u → s.phase = .header → 22 ≤ s.streamLen → memRead4 s 0 = some m →
    memRead4 s 4 = some w → memRead4 s 8 = some h → memRead1 s 12 = some c → memRead1 s 13 = some sp →
    (m ≠ 0x716F6966 → step s = .next (failedWith .badMagic u)) ∧
      (m = 0x716F6966 → c ≠ 3 → c ≠ 4 → step s = .next (failedWith .invalidChannelCount u)) ∧
      (m = 0x716F6966 → (c = 3 ∨ c = 4) → (∀ cap, s.outCap = some cap → w.toNat * h.toNat * c.toNat ≤ cap) →
        step s = .next { u with
          magicValid := true, width := w, height := h, channels := c, colorspace := sp,
          npix := BitVec.ofNat 64 (w.toNat * h.toNat), cur := 14, phase := .decode }) ∧
      (m = 0x716F6966 → (c = 3 ∨ c = 4) → (∃ cap, s.outCap = some cap ∧ cap < w.toNat * h.toNat * c.toNat) →
        step s = .refused .outputCapacity)

/-- HDR commits a whole header (R99) where no check fails and the image fits, and writes nothing else. NPIX is the
exact product. -/
def Obligations.HeaderCommits : Prop :=
  ∀ (s : State) (w h : BitVec 32) (c sp : Byte), 22 ≤ s.streamLen → (c = 3 ∨ c = 4) →
    (∀ cap, s.outCap = some cap → w.toNat * h.toNat * c.toNat ≤ cap) →
    ∃ t, exec (.hdr 0x716F6966 w h c sp) s = .next t ∧
      t.magicValid = true ∧ t.width = w ∧ t.height = h ∧ t.channels = c ∧ t.colorspace = sp ∧
      t.npix.toNat = w.toNat * h.toNat ∧ t.cur = 14 ∧ t.phase = .decode ∧
      t.prev = s.prev ∧ t.cache = s.cache ∧ t.pxcnt = s.pxcnt ∧ t.run = s.run ∧ t.outLen = s.outLen ∧
      t.outMem = s.outMem ∧ t.err = s.err ∧ t.streamLen = s.streamLen ∧ t.inMem = s.inMem ∧ t.outCap = s.outCap ∧
      t.hostq = s.hostq ∧ t.reply = s.reply ∧ t.lenWritten = s.lenWritten

/-- The order of HDR's checks (R98): the first that fails is raised. -/
def Obligations.HeaderErrorOrder : Prop :=
  ∀ (s : State) (m w h : BitVec 32) (c sp : Byte),
    (s.streamLen < 22 → exec (.hdr m w h c sp) s = .next (failedWith .truncated s)) ∧
      (22 ≤ s.streamLen → m ≠ 0x716F6966 → exec (.hdr m w h c sp) s = .next (failedWith .badMagic s)) ∧
      (22 ≤ s.streamLen → m = 0x716F6966 → c ≠ 3 → c ≠ 4 →
        exec (.hdr m w h c sp) s = .next (failedWith .invalidChannelCount s))

/-- A decode whose NPIX × CHANNELS exceeds OUT_CAP is refused (R59), and no other; never when OUT is unbounded. That HDR is
what is refused, after its three checks, is the model's choice (log entry 4). -/
def Obligations.CapacityIsRefusedExactly : Prop :=
  ∀ (s : State) (m w h : BitVec 32) (c sp : Byte),
    exec (.hdr m w h c sp) s = .refused .outputCapacity ↔
      22 ≤ s.streamLen ∧ m = 0x716F6966 ∧ (c = 3 ∨ c = 4) ∧
        ∃ cap, s.outCap = some cap ∧ cap < w.toNat * h.toNat * c.toNat

/-- The pixel total is the exact product, and an image with no pixel is DONE in the step after its header, with no
opcode byte read and no output (R97): nothing is assumed of IN. -/
def Obligations.ZeroSizedImageIsDone : Prop :=
  ∀ (s : State) (w h : BitVec 32) (c sp : Byte), s.hostq = [] → 22 ≤ s.streamLen → (c = 3 ∨ c = 4) →
    (∀ cap, s.outCap = some cap → w.toNat * h.toNat * c.toNat ≤ cap) →
    ∃ t, exec (.hdr 0x716F6966 w h c sp) s = .next t ∧ t.npix.toNat = w.toNat * h.toNat ∧
      ((w = 0 ∨ h = 0) → s.pxcnt = 0 → s.outLen = 0 →
        t.npix = 0 ∧ t.outLen = 0 ∧ step t = .next { t with phase := .done })

/-! ### The opcodes -/

/-- RGB (R125). -/
def Obligations.RgbEmitsItsPixel : Prop :=
  ∀ (s : State) (r g b : Byte),
    encode (.rgb r g b) = [0xFE#8, r, g, b] ∧
      (s.cur + 4 ≤ s.limit → ∃ t, exec (.rgb r g b) s = .next t ∧ Emits ⟨r, g, b, s.prev.a⟩ s t ∧
        t.cur = s.cur + 4 ∧ t.run = s.run) ∧
      (s.limit < s.cur + 4 → exec (.rgb r g b) s = .next (failedWith .unexpectedEndOfStream s))

/-- RGBA (R126): PREV is not read. -/
def Obligations.RgbaEmitsItsPixel : Prop :=
  ∀ (s : State) (r g b a : Byte),
    encode (.rgba r g b a) = [0xFF#8, r, g, b, a] ∧
      (s.cur + 5 ≤ s.limit → ∃ t, exec (.rgba r g b a) s = .next t ∧ Emits ⟨r, g, b, a⟩ s t ∧ t.cur = s.cur + 5 ∧
        t.run = s.run) ∧
      (s.limit < s.cur + 5 → exec (.rgba r g b a) s = .next (failedWith .unexpectedEndOfStream s))

/-- INDEX (R130): the pixel of the named slot, alpha included; where it passed the fetch bound it raises nothing. -/
def Obligations.IndexEmitsTheSlot : Prop :=
  ∀ (s : State) (idx : BitVec 6),
    (∃ b0, encode (.index idx) = [b0] ∧ b0.toNat = idx.toNat) ∧
      (s.cur < s.limit → ∃ t, exec (.index idx) s = .next t ∧ Emits (cacheRead s.cache idx) s t ∧
        t.cur = s.cur + 1 ∧ t.run = s.run)

/-- RUN, its first step (R131): PREV once more, and the field's value still owed. -/
def Obligations.RunEmitsItsFirstPixel : Prop :=
  ∀ (s : State) (frun : BitVec 6), s.cur < s.limit →
    ∃ t, exec (.run frun) s = .next t ∧ Emits s.prev s t ∧ t.cur = s.cur + 1 ∧ t.run = frun

/-- DIFF (R135): three wrapping sums, alpha kept. -/
def Obligations.DiffEmitsTheSums : Prop :=
  ∀ (s : State) (fr fg fb : BitVec 2),
    (∃ b0, encode (.diff fr fg fb) = [b0] ∧ b0.toNat = 0x40 + fr.toNat * 16 + fg.toNat * 4 + fb.toNat) ∧
      (s.cur < s.limit → ∃ t p, exec (.diff fr fg fb) s = .next t ∧ Emits p s t ∧ t.cur = s.cur + 1 ∧
        t.run = s.run ∧
        (p.r.toNat : Int) = (s.prev.r.toNat + ((fr.toNat : Int) - 2)) % 256 ∧
        (p.g.toNat : Int) = (s.prev.g.toNat + ((fg.toNat : Int) - 2)) % 256 ∧
        (p.b.toNat : Int) = (s.prev.b.toNat + ((fb.toNat : Int) - 2)) % 256 ∧ p.a = s.prev.a)

/-- LUMA (R136): red and blue deltas relative to the green one, wrapping sums, alpha kept. -/
def Obligations.LumaEmitsTheSums : Prop :=
  ∀ (s : State) (fdg : BitVec 6) (frg fbg : BitVec 4),
    (∃ b0 b1, encode (.luma fdg frg fbg) = [b0, b1] ∧ b0.toNat = 0x80 + fdg.toNat ∧
        b1.toNat = frg.toNat * 16 + fbg.toNat) ∧
      (s.cur + 2 ≤ s.limit → ∃ t p, exec (.luma fdg frg fbg) s = .next t ∧ Emits p s t ∧ t.cur = s.cur + 2 ∧
        t.run = s.run ∧
        (p.r.toNat : Int) = (s.prev.r.toNat + (((frg.toNat : Int) - 8) + ((fdg.toNat : Int) - 32))) % 256 ∧
        (p.g.toNat : Int) = (s.prev.g.toNat + ((fdg.toNat : Int) - 32)) % 256 ∧
        (p.b.toNat : Int) = (s.prev.b.toNat + (((fbg.toNat : Int) - 8) + ((fdg.toNat : Int) - 32))) % 256 ∧
        p.a = s.prev.a) ∧
      (s.limit < s.cur + 2 → exec (.luma fdg frg fbg) s = .next (failedWith .unexpectedEndOfStream s))

/-- INDEX of an empty slot (R130 corner cases a and c): the pixel {0,0,0,0}, PREV all zero, slot 0 overwritten. -/
def Obligations.IndexOfAnEmptySlot : Prop :=
  ∀ (s : State) (idx : BitVec 6), s.cur < s.limit → cacheRead s.cache idx = ⟨0, 0, 0, 0⟩ →
    ∃ t, exec (.index idx) s = .next t ∧ t.prev = ⟨0, 0, 0, 0⟩ ∧ cacheRead t.cache 0 = ⟨0, 0, 0, 0⟩ ∧
      ∀ j, j ≠ 0 → cacheRead t.cache j = cacheRead s.cache j

/-- Read after write between pixels (R190): an INDEX of the slot that the opcode before it wrote emits its pixel again, and
leaves the cache as it is. -/
def Obligations.IndexSeesThePixelBefore : Prop :=
  ∀ (s t : State) (i : Instr), i.position = .opcode → s.cur + i.size < s.limit → exec i s = .next t →
    ∃ t', exec (.index (pixelHash t.prev)) t = .next t' ∧ Emits t.prev t t' ∧ t'.cur = t.cur + 1 ∧ t'.run = t.run ∧
      ∀ j, cacheRead t'.cache j = cacheRead t.cache j

/-! ### The decode loop -/

/-- A step runs the decoded instruction: the opcode at CUR in DECODE, the record at index 0 in HEADER. -/
def Obligations.StepRunsTheDecodedInstruction : Prop :=
  ∀ s u bs i, BlockTurn s u →
    (s.phase = .decode → s.pxcnt ≠ s.npix → s.run = 0 → fetchBytes s s.cur i.size = .ok bs →
        decode .opcode bs = .ok (i, []) → s.cur + i.size ≤ s.limit → step s = exec i u) ∧
      (s.phase = .header → 22 ≤ s.streamLen → fetchBytes s 0 14 = .ok bs → decode .header bs = .ok (i, []) →
        step s = exec i u)

/-- Termination (R114): tested first, so nothing is assumed of RUN, CUR or IN; only STATE is written. -/
def Obligations.CompletionEndsTheDecode : Prop :=
  ∀ s u, BlockTurn s u → s.phase = .decode → s.pxcnt = s.npix → step s = .next { u with phase := .done }

/-- A run continuation (R111): nothing is fetched, so nothing is assumed of CUR or IN. -/
def Obligations.RunContinuationEmitsPrev : Prop :=
  ∀ s u, BlockTurn s u → s.phase = .decode → s.pxcnt ≠ s.npix → s.run ≠ 0 →
    ∃ t, step s = .next t ∧ Emits s.prev u t ∧ t.run = s.run - 1 ∧ t.cur = s.cur

/-- The fetch bound (R112): pixels are owed and the opcode region is used up; `IN[CUR]` is not read. -/
def Obligations.FetchBoundRaises : Prop :=
  ∀ s u, BlockTurn s u → s.phase = .decode → s.pxcnt ≠ s.npix → s.run = 0 → s.limit ≤ s.cur →
    step s = .next (failedWith .unexpectedEndOfStream u)

/-- The operand bound (R113): an opcode that reaches LIMIT is not executed in part, and its operands are not read. -/
def Obligations.OperandBoundRaises : Prop :=
  ∀ s u b0, BlockTurn s u → s.phase = .decode → s.pxcnt ≠ s.npix → s.run = 0 → s.cur < s.limit →
    memRead1 s s.cur = some b0 → s.limit < s.cur + oplen b0 →
    step s = .next (failedWith .unexpectedEndOfStream u)

/-- Exactly when UnexpectedEndOfStream is raised (R154): by a DECODE step with pixels owed, no run in progress, and no
opcode or no whole opcode left below LIMIT; never by a HEADER step. PXCNT does not exceed NPIX (R38). -/
def Obligations.UnexpectedEndExactly : Prop :=
  ∀ s u, BlockTurn s u →
    (s.phase = .decode → s.pxcnt.toNat ≤ s.npix.toNat →
      (step s = .next (failedWith .unexpectedEndOfStream u) ↔
        s.pxcnt.toNat < s.npix.toNat ∧ s.run = 0 ∧
          (s.limit ≤ s.cur ∨ ∃ b0, memRead1 s s.cur = some b0 ∧ s.limit < s.cur + oplen b0))) ∧
      (s.phase = .header → step s ≠ .next (failedWith .unexpectedEndOfStream u))

/-- The opcode-granular view of a run (R120): from the step that fetches a RUN of length n, k = min(n, pixels owed)
steps emit PREV k times, move CUR by 1, write the one slot, and change nothing else. -/
def Obligations.WholeRunInOneGo : Prop :=
  ∀ (s : State) (b0 : Byte) (k : Nat), Lawful s → s.hostq = [] → s.phase = .decode → s.pxcnt ≠ s.npix → s.run = 0 →
    s.cur < s.limit → memRead1 s s.cur = some b0 → 0xC0 ≤ b0.toNat → b0.toNat ≤ 0xFD →
    k = min (b0.toNat - 0xC0 + 1) (s.npix.toNat - s.pxcnt.toNat) →
    ∃ t, steps k s = .next t ∧ t.phase = .decode ∧ t.cur = s.cur + 1 ∧ t.pxcnt.toNat = s.pxcnt.toNat + k ∧
      t.run.toNat + k = b0.toNat - 0xC0 + 1 ∧ t.prev = s.prev ∧
      (∀ j, cacheRead t.cache j = if j = pixelHash s.prev then s.prev else cacheRead s.cache j) ∧
      t.outLen.toNat = s.outLen.toNat + k * s.channels.toNat ∧
      (∀ j, j < k → ∀ a, a = s.outLen.toNat + j * s.channels.toNat →
        Memory.read t.outMem a = some s.prev.r ∧ Memory.read t.outMem (a + 1) = some s.prev.g ∧
          Memory.read t.outMem (a + 2) = some s.prev.b ∧
          (s.channels = 4 → Memory.read t.outMem (a + 3) = some s.prev.a)) ∧
      (∀ a, (a < s.outLen.toNat ∨ s.outLen.toNat + k * s.channels.toNat ≤ a) →
        Memory.read t.outMem a = Memory.read s.outMem a) ∧
      t.err = s.err ∧ t.streamLen = s.streamLen ∧ t.inMem = s.inMem ∧ t.magicValid = s.magicValid ∧
      t.width = s.width ∧ t.height = s.height ∧ t.channels = s.channels ∧ t.colorspace = s.colorspace ∧
      t.npix = s.npix ∧ t.outCap = s.outCap ∧ t.hostq = s.hostq ∧ t.reply = s.reply ∧ t.lenWritten = s.lenWritten

/-- Progress (R118): a decode that reached DECODE is over after NPIX − PXCNT + 1 steps of the block, if its stream was
placed. Where an error ends it earlier, the steps left over are turns in ERROR, which change nothing by the model's
choice (log entry 7). -/
def Obligations.DecodePhaseEnds : Prop :=
  ∀ s, Lawful s → s.hostq = [] → s.phase = .decode → StreamPlaced s →
    ∃ t, steps (s.npix.toNat - s.pxcnt.toNat + 1) s = .next t ∧ t.ended

/-- A whole decode ends (R118): a START command in any state that takes it, then in at most NPIX + 3 steps, that one
included, the decode is over, whatever the stream, if it was placed and OUT is unbounded. -/
def Obligations.WholeDecodeEnds : Prop :=
  ∀ s, Lawful s → (s.phase = .idle ∨ s.phase = .done ∨ s.phase = .error) → s.hostq = [.act .start] →
    StreamPlaced s → s.outCap = none →
    ∃ t₁, step s = .next t₁ ∧ t₁.phase = .header ∧
      ∃ k t, steps k t₁ = .next t ∧ t.ended ∧ t.hostq = [] ∧ k + 1 ≤ t.npix.toNat + 3

/-! ### The whole machine -/

/-- The laws of the state hold after reset, with the values the model chose for what the spec leaves unspecified (log
entries 1 and 2). -/
def Obligations.LawsHoldAtReset : Prop := Lawful State.reset

/-- Every step keeps the laws of the state. For the step that is a hardware reset this rests on the values the model
chose (log entry 1); the canonical form of the memories and the capacity are the model's too (log entries 2 and 4), and so
is the bound on CUR in DECODE only (log entry 8). -/
def Obligations.EveryStepKeepsTheLaws : Prop := ∀ s t, Lawful s → step s = .next t → Lawful t

/-- How CUR moves, completely (R26), but for hardware reset, after which it is unspecified: what each kind of step
makes of it, and that no other step writes it. -/
def Obligations.CursorMoves : Prop :=
  ∀ s t, step s = .next t → (∀ u, ¬ HostDoes .reset s u) →
    ((∃ u, HostDoes .start s u) → s.phase ≠ .header → s.phase ≠ .decode → t.cur = 0) ∧
      ((∃ u, BlockTurn s u) → s.phase = .header → t.phase = .decode → t.cur = 14) ∧
      ((∃ u, BlockTurn s u) → s.phase = .decode → t.phase = .decode → s.run = 0 →
        ∃ b0, memRead1 s s.cur = some b0 ∧ t.cur = s.cur +
          (if b0 = 0xFE#8 then 4 else if b0 = 0xFF#8 then 5 else if b0 &&& 0xC0#8 = 0x80#8 then 2 else 1)) ∧
      (t.cur ≠ s.cur →
        (∃ u, HostDoes .start s u ∧ s.phase ≠ .header ∧ s.phase ≠ .decode) ∨
          ∃ u, BlockTurn s u ∧ t.phase = .decode ∧
            (s.phase = .header ∨ (s.phase = .decode ∧ s.run = 0 ∧ s.pxcnt ≠ s.npix ∧ s.cur < t.cur)))

/-- The header is immutable after its one HEADER step (R101): the flag, the header registers and NPIX change next at a
START command that is taken, but for hardware reset. -/
def Obligations.HeaderIsImmutable : Prop :=
  ∀ s t, step s = .next t → s.phase ≠ .header → (∀ u, ¬ HostDoes .reset s u) →
    (s.phase = .decode ∨ ∀ u, ¬ HostDoes .start s u) →
    t.magicValid = s.magicValid ∧ t.width = s.width ∧ t.height = s.height ∧ t.channels = s.channels ∧
      t.colorspace = s.colorspace ∧ t.npix = s.npix

/-- The error transition (R155): a step into ERROR writes STATE, ERR and OUT_LEN, and nothing else. -/
def Obligations.ErrorsArePrecise : Prop :=
  ∀ s t, step s = .next t → s.phase ≠ .error → t.phase = .error →
    ∃ u e, BlockTurn s u ∧ t = failedWith e u

/-- Which error comes from where (R150): the first three from HEADER, the fourth from DECODE. -/
def Obligations.ErrorsByPhase : Prop :=
  ∀ s t, step s = .next t → s.phase ≠ .error → t.phase = .error →
    (s.phase = .header ∧
        (t.err = some .truncated ∨ t.err = some .badMagic ∨ t.err = some .invalidChannelCount)) ∨
      (s.phase = .decode ∧ t.err = some .unexpectedEndOfStream)

/-- ERROR and DONE are terminal (R157, R160): the result stays until START or hardware reset. -/
def Obligations.ResultsStayUntilStart : Prop :=
  ∀ s t, step s = .next t → s.ended →
    (result t = result s ∧ t.phase = s.phase) ∨ (∃ u, HostDoes .start s u ∧ t.phase = .header ∧ t.err = none) ∨
      (∃ u, HostDoes .reset s u ∧ t.phase = .idle)

/-- OUT is append-only (R56), but for hardware reset: no appended byte is rewritten; OUT_LEN grows by CHANNELS with
each emission, is set to 0 by START and by an error, and changes in no other step: the step that finishes a decode leaves
it alone. -/
def Obligations.OutputIsAppendOnly : Prop :=
  ∀ s t, Lawful s → step s = .next t → (∀ u, ¬ HostDoes .reset s u) →
    (∀ a, a < s.outLen.toNat → Memory.read t.outMem a = Memory.read s.outMem a) ∧
      ((∃ u, BlockTurn s u) → s.phase = .decode → t.phase = .decode →
        t.outLen.toNat = s.outLen.toNat + s.channels.toNat) ∧
      (s.phase ≠ .error → t.phase = .error → t.outLen = 0) ∧
      ((∃ u, HostDoes .start s u) → s.phase ≠ .header → s.phase ≠ .decode → t.outLen = 0) ∧
      (t.outLen ≠ s.outLen →
        (∃ u, BlockTurn s u ∧ s.phase = .decode ∧ (t.phase = .decode ∨ t.phase = .error)) ∨
          ∃ u, HostDoes .start s u ∧ s.phase ≠ .header ∧ s.phase ≠ .decode)

/-- The block never writes its stream (R50, R32): a turn of the block leaves IN and STREAM_LEN alone. -/
def Obligations.BlockNeverWritesTheStream : Prop :=
  ∀ s t u, BlockTurn s u → step s = .next t → t.inMem = s.inMem ∧ t.streamLen = s.streamLen

/-- The cache is written by emissions only, at the emitted pixel's slot (R41), but for START and hardware reset. -/
def Obligations.CacheWrittenByEmissionsOnly : Prop :=
  ∀ s t j, step s = .next t → (∀ u, ¬ HostDoes .reset s u ∧ ¬ HostDoes .start s u) →
    cacheRead t.cache j = cacheRead s.cache j ∨
      (t.pxcnt = s.pxcnt + 1 ∧ j = pixelHash t.prev ∧ cacheRead t.cache j = t.prev)

/-- Bounds of reads (R55): no step of the block depends on a byte of IN at or beyond LIMIT, and with STREAM_LEN below
22 on no byte at all. -/
def Obligations.MarkerIsNeverRead : Prop :=
  ∀ s u m, Lawful s → BlockTurn s u →
    (22 ≤ s.streamLen → ∀ a, a < s.limit → Memory.read m a = Memory.read s.inMem a) →
    step { s with inMem := m } = onNext (fun t => { t with inMem := m }) (step s)

/-- With the stream placed and OUT unbounded, no turn of the block stops the machine (R172). In IDLE, DONE and ERROR, where
no step is enabled, that the turn is a next state is the model's choice (log entry 7). -/
def Obligations.PlacedStreamNeverStops : Prop :=
  ∀ s u, Lawful s → BlockTurn s u → StreamPlaced s → s.outCap = none → ∃ t, step s = .next t

/-- DONE holds the whole image (R146, R189): exactly WIDTH × HEIGHT × CHANNELS bytes. -/
def Obligations.DoneHoldsTheWholeImage : Prop :=
  ∀ s, Lawful s → s.phase = .done →
    ∃ bytes : List Byte, bytes.length = s.width.toNat * s.height.toNat * s.channels.toNat ∧
      result s = some (.ok s.width s.height s.channels s.colorspace (bytes.map some))

/-- Every decode is independent of every earlier one (R184): what is seen of a decode, step by step, is a function of
the stream alone (and of OUT_CAP, a parameter). -/
def Obligations.DecodesAreIndependent : Prop :=
  ∀ (s t : State) (k : Nat), s.hostq = [] → t.hostq = [] → s.streamLen = t.streamLen →
    (∀ a, a < s.streamLen → Memory.read s.inMem a = Memory.read t.inMem a) → s.outCap = t.outCap →
    seen (steps k (startDecode s)) = seen (steps k (startDecode t))

/-! ### The host -/

/-- The access rights of the host by phase (R40; for STREAM_LEN with R47, D18 and R156: log entry 17): each register read,
the writes, and OUT, every broken duty refused (R187); HostReadsTheValues says which number a register read gives. That a
read with no access, where it breaks no duty, is a step that gives no value is the model's choice (log entry 10). -/
def Obligations.HostAccessByPhase : Prop :=
  ∀ s u, Lawful s →
    (∀ r, HostDoes (.readReg r) s u →
        (r = .state ∨ r = .err ∨ (r = .streamLen ∧ s.phase = .idle ∧ s.lenWritten = true) ∨
            (r ≠ .streamLen ∧ s.phase = .done) ∨ (r = .outLen ∧ s.phase = .error) →
          step s = .next { u with reply := some (hostRegValue s r) }) ∧
        (¬ (r = .state ∨ r = .err ∨ (r = .streamLen ∧ s.phase = .idle ∧ s.lenWritten = true) ∨
            (r ≠ .streamLen ∧ s.phase = .done) ∨ (r = .outLen ∧ s.phase = .error)) →
          step s = if s.phase.busy ∧ r ≠ .streamLen then .refused .hostWhileBusy else .next { u with reply := none })) ∧
      (∀ k b, HostDoes (.writeIn k b) s u →
        step s = if s.phase.busy then .refused .hostWhileBusy
          else .next { u with inMem := Memory.write s.inMem k b }) ∧
      (∀ n, HostDoes (.writeLen n) s u →
        step s = if s.phase.busy then .refused .hostWhileBusy
          else .next { u with streamLen := n, lenWritten := true }) ∧
      (∀ k, HostDoes (.readOut k) s u →
        (s.phase = .done → k < s.outLen.toNat →
          ∃ b, Memory.read s.outMem k = some b ∧ step s = .next { u with reply := some b.toNat }) ∧
        (¬ (s.phase = .done ∧ k < s.outLen.toNat) →
          step s = if s.phase.busy then .refused .hostWhileBusy else .next { u with reply := none }))

/-- The number each register read gives the host, register by register: the codes of STATE (R30) and ERR (R31), the 0 or 1
of MAGIC_VALID (R28), and the registers that are numbers themselves (R32 to R36, R39). STREAM_LEN in IDLE, once
written: log entry 17. -/
def Obligations.HostReadsTheValues : Prop :=
  ∀ s u, (∀ n, s.phase = .idle ∧ n = 0 ∨ s.phase = .header ∧ n = 1 ∨ s.phase = .decode ∧ n = 2 ∨
        s.phase = .done ∧ n = 3 ∨ s.phase = .error ∧ n = 4 →
      HostDoes (.readReg .state) s u → step s = .next { u with reply := some n }) ∧
    (∀ n, s.err = none ∧ n = 0 ∨ s.err = some .truncated ∧ n = 1 ∨ s.err = some .badMagic ∧ n = 2 ∨
        s.err = some .invalidChannelCount ∧ n = 3 ∨ s.err = some .unexpectedEndOfStream ∧ n = 4 →
      HostDoes (.readReg .err) s u → step s = .next { u with reply := some n }) ∧
    (s.phase = .idle → s.lenWritten = true →
      HostDoes (.readReg .streamLen) s u → step s = .next { u with reply := some s.streamLen }) ∧
    (s.phase = .done →
      (∀ n, s.magicValid = false ∧ n = 0 ∨ s.magicValid = true ∧ n = 1 →
        HostDoes (.readReg .magicValid) s u → step s = .next { u with reply := some n }) ∧
      (HostDoes (.readReg .width) s u → step s = .next { u with reply := some s.width.toNat }) ∧
      (HostDoes (.readReg .height) s u → step s = .next { u with reply := some s.height.toNat }) ∧
      (HostDoes (.readReg .channels) s u → step s = .next { u with reply := some s.channels.toNat }) ∧
      (HostDoes (.readReg .colorspace) s u → step s = .next { u with reply := some s.colorspace.toNat })) ∧
    (s.phase = .done ∨ s.phase = .error →
      HostDoes (.readReg .outLen) s u → step s = .next { u with reply := some s.outLen.toNat })

/-- What the host sees after an error (R156): STATE = ERROR, ERR the code, OUT_LEN 0, and no other register and no byte of
OUT gives a value; the result is the error kind alone. (Where the value read is held, and that a read with no access is a
step that gives none: log entries 6 and 10.) -/
def Obligations.ErrorShowsTheKindAlone : Prop :=
  ∀ s, Lawful s → s.phase = .error →
    ∃ e, s.err = some e ∧ result s = some (.failed e) ∧
      ∀ u, (HostDoes (.readReg .state) s u → step s = .next { u with reply := some 4 }) ∧
        (∀ n, e = .truncated ∧ n = 1 ∨ e = .badMagic ∧ n = 2 ∨ e = .invalidChannelCount ∧ n = 3 ∨
            e = .unexpectedEndOfStream ∧ n = 4 →
          HostDoes (.readReg .err) s u → step s = .next { u with reply := some n }) ∧
        (HostDoes (.readReg .outLen) s u → step s = .next { u with reply := some 0 }) ∧
        (∀ r, r ≠ .state → r ≠ .err → r ≠ .outLen → HostDoes (.readReg r) s u →
          step s = .next { u with reply := none }) ∧
        ∀ k, HostDoes (.readOut k) s u → step s = .next { u with reply := none }

/-- When STREAM_LEN has a value that the host may read (R47): none after hardware reset, one after the host's write, and
no other step changes that. (The bit that says so is the model's own: log entry 17.) -/
def Obligations.StreamLengthHasAValueOnceWritten : Prop :=
  State.reset.lenWritten = false ∧
    ∀ s t, step s = .next t →
      ((∃ u, HostDoes .reset s u) → t.lenWritten = false) ∧
        (∀ n, (∃ u, HostDoes (.writeLen n) s u) → t.lenWritten = true ∧ t.streamLen = n) ∧
        ((∀ u, ¬ HostDoes .reset s u) → (∀ n u, ¬ HostDoes (.writeLen n) s u) →
          t.lenWritten = s.lenWritten ∧ t.streamLen = s.streamLen)

/-- The host cannot read or write the running state (R24, R40): to whatever it does but START and reset, CUR, NPIX, PXCNT,
RUN, PREV and CACHE make no difference, and they are left as they are. -/
def Obligations.HostCannotSeeTheRunningState : Prop :=
  ∀ (s u : State) (a : HostAction) (cur : Nat) (npix pxcnt : BitVec 64) (run : BitVec 6) (prev : Pixel)
    (cache : Vector Pixel 64), HostDoes a s u → a ≠ .reset → a ≠ .start →
    step { s with cur := cur, npix := npix, pxcnt := pxcnt, run := run, prev := prev, cache := cache } =
        onNext
          (fun t => { t with cur := cur, npix := npix, pxcnt := pxcnt, run := run, prev := prev, cache := cache })
          (step s) ∧
      ∀ t, step s = .next t → t.cur = s.cur ∧ t.npix = s.npix ∧ t.pxcnt = s.pxcnt ∧ t.run = s.run ∧
        t.prev = s.prev ∧ t.cache = s.cache

/-! ### Memory -/

/-- The canonical form, which is the model's choice (log entry 2), is unique: two canonical memories that read alike are
equal. -/
def Obligations.MemoriesThatReadAlikeAreEqual : Prop :=
  ∀ m n : Memory, Memory.wf m → Memory.wf n → (∀ a, Memory.read m a = Memory.read n a) → m = n
end

