-- ==== Sys2Proof/Laws/Decode.lean ====
section
/-! SUPPORT. What the decoder can answer. -/

namespace Sys2Proof

/-- The opcode a typed first byte begins: its size. -/
def FirstByte.size : FirstByte → Nat
  | .rgb => 4
  | .rgba => 5
  | .run _ => 1
  | .index _ => 1
  | .diff _ _ _ => 1
  | .luma _ => 2

theorem oplen_eq_size : ∀ b0 : Byte, oplen b0 = (decodeFirst b0).size := by decide

/-- The run field of a first byte is never 62 or 63 (R73, R79). -/
theorem decodeFirst_run : ∀ (b0 : Byte) (f : BitVec 6), decodeFirst b0 = .run f → f.toNat ≤ 61 := by decide

theorem oplen_pos : ∀ b0 : Byte, 1 ≤ oplen b0 ∧ oplen b0 ≤ 5 := by decide

/-- An opcode that is read stands in the opcode region, is well formed, and has the size of its first byte. -/
theorem decodeOpcode_ok {b0 : Byte} {rest after : List Byte} {i : Instr}
    (h : decodeOpcode (b0 :: rest) = .ok (i, after)) :
    i.position = .opcode ∧ i.wf = true ∧ i.size = oplen b0 := by
  have hs := oplen_eq_size b0
  simp only [decodeOpcode] at h
  cases hf : decodeFirst b0 with
  | rgb =>
    rw [hf] at h hs
    simp only at h
    split at h <;> cases h
    exact ⟨rfl, rfl, hs.symm⟩
  | rgba =>
    rw [hf] at h hs
    simp only at h
    split at h <;> cases h
    exact ⟨rfl, rfl, hs.symm⟩
  | run f =>
    rw [hf] at h hs
    cases h
    exact ⟨rfl, by simpa [Instr.wf] using decodeFirst_run b0 f hf, hs.symm⟩
  | index i =>
    rw [hf] at h hs
    cases h
    exact ⟨rfl, rfl, hs.symm⟩
  | diff x y z =>
    rw [hf] at h hs
    cases h
    exact ⟨rfl, rfl, hs.symm⟩
  | luma f =>
    rw [hf] at h hs
    simp only at h
    split at h <;> cases h
    exact ⟨rfl, rfl, hs.symm⟩

/-- As many bytes as the first byte asks for are an opcode, with nothing left over. -/
theorem decodeOpcode_exact {b0 : Byte} {rest : List Byte} (h : rest.length + 1 = oplen b0) :
    ∃ i, decodeOpcode (b0 :: rest) = .ok (i, []) := by
  have hs := oplen_eq_size b0
  simp only [decodeOpcode]
  cases hf : decodeFirst b0 with
  | rgb =>
    rw [hf] at hs
    simp only [FirstByte.size] at hs
    match rest, h with
    | [r, g, b], _ => exact ⟨_, rfl⟩
    | [], h | [_], h | [_, _], h | _ :: _ :: _ :: _ :: _, h => simp at h; omega
  | rgba =>
    rw [hf] at hs
    simp only [FirstByte.size] at hs
    match rest, h with
    | [r, g, b, a], _ => exact ⟨_, rfl⟩
    | [], h | [_], h | [_, _], h | [_, _, _], h | _ :: _ :: _ :: _ :: _ :: _, h => simp at h; omega
  | run f =>
    rw [hf] at hs
    simp only [FirstByte.size] at hs
    match rest, h with
    | [], _ => exact ⟨_, rfl⟩
    | _ :: _, h => simp at h; omega
  | index i =>
    rw [hf] at hs
    simp only [FirstByte.size] at hs
    match rest, h with
    | [], _ => exact ⟨_, rfl⟩
    | _ :: _, h => simp at h; omega
  | diff x y z =>
    rw [hf] at hs
    simp only [FirstByte.size] at hs
    match rest, h with
    | [], _ => exact ⟨_, rfl⟩
    | _ :: _, h => simp at h; omega
  | luma f =>
    rw [hf] at hs
    simp only [FirstByte.size] at hs
    match rest, h with
    | [b1], _ => exact ⟨_, rfl⟩
    | [], h | _ :: _ :: _, h => simp at h; omega

/-- Fourteen bytes are a header record, with nothing left over. -/
theorem decodeHeader_exact {bs : List Byte} (h : bs.length = 14) :
    ∃ i, decodeHeader bs = .ok (i, []) ∧ i.position = .header := by
  match bs, h with
  | [_, _, _, _, _, _, _, _, _, _, _, _, _, _], _ => exact ⟨_, rfl, rfl⟩

/-- The four-byte value by its bytes (R52). -/
theorem be32_toNat (b0 b1 b2 b3 : Byte) :
    (be32 b0 b1 b2 b3).toNat = b0.toNat * 2 ^ 24 + b1.toNat * 2 ^ 16 + b2.toNat * 2 ^ 8 + b3.toNat := by
  have h0 := b0.isLt
  have h1 := b1.isLt
  have h2 := b2.isLt
  have h3 := b3.isLt
  have e : (be32 b0 b1 b2 b3).toNat = ((b0.toNat <<< 8 ||| b1.toNat) <<< 8 ||| b2.toNat) <<< 8 ||| b3.toNat := by
    unfold be32
    rw [BitVec.toNat_append, BitVec.toNat_append, BitVec.toNat_append]
  rw [e, ← Nat.shiftLeft_add_eq_or_of_lt (by omega), ← Nat.shiftLeft_add_eq_or_of_lt (by omega),
    ← Nat.shiftLeft_add_eq_or_of_lt (by omega)]
  simp only [Nat.shiftLeft_eq]
  omega

/-- A value is put together again from its bytes. -/
theorem be32_of_bytes (v : BitVec 32) :
    be32 (v.extractLsb' 24 8) (v.extractLsb' 16 8) (v.extractLsb' 8 8) (v.extractLsb' 0 8) = v := by
  have := v.isLt
  apply BitVec.eq_of_toNat_eq
  simp [be32_toNat, Nat.shiftRight_eq_div_pow]
  omega

/-- The bytes of a four-byte value are the bytes it was put together from. -/
theorem be32Bytes_be32 (b0 b1 b2 b3 : Byte) : be32Bytes (be32 b0 b1 b2 b3) = [b0, b1, b2, b3] := by
  have h := be32_toNat b0 b1 b2 b3
  have h0 := b0.isLt
  have h1 := b1.isLt
  have h2 := b2.isLt
  have h3 := b3.isLt
  simp only [be32Bytes, List.cons.injEq, and_true]
  refine ⟨?_, ?_, ?_, ?_⟩ <;>
  · apply BitVec.eq_of_toNat_eq
    simp only [BitVec.extractLsb'_toNat, h, Nat.shiftRight_eq_div_pow]
    omega

end Sys2Proof
end

