-- ==== Sys2Proof/Laws/State.lean ====
section
/-! SUPPORT. One lemma for each field of State and each update, so that no later proof unfolds a record update. -/

namespace Sys2Proof.Machine

/-! ### cacheWrite -/

@[simp] theorem cacheWrite_phase (i : BitVec 6) (p : Pixel) (s : State) : (cacheWrite i p s).phase = s.phase := rfl
@[simp] theorem cacheWrite_err (i : BitVec 6) (p : Pixel) (s : State) : (cacheWrite i p s).err = s.err := rfl
@[simp] theorem cacheWrite_streamLen (i : BitVec 6) (p : Pixel) (s : State) : (cacheWrite i p s).streamLen = s.streamLen := rfl
@[simp] theorem cacheWrite_cur (i : BitVec 6) (p : Pixel) (s : State) : (cacheWrite i p s).cur = s.cur := rfl
@[simp] theorem cacheWrite_magicValid (i : BitVec 6) (p : Pixel) (s : State) : (cacheWrite i p s).magicValid = s.magicValid := rfl
@[simp] theorem cacheWrite_width (i : BitVec 6) (p : Pixel) (s : State) : (cacheWrite i p s).width = s.width := rfl
@[simp] theorem cacheWrite_height (i : BitVec 6) (p : Pixel) (s : State) : (cacheWrite i p s).height = s.height := rfl
@[simp] theorem cacheWrite_channels (i : BitVec 6) (p : Pixel) (s : State) : (cacheWrite i p s).channels = s.channels := rfl
@[simp] theorem cacheWrite_colorspace (i : BitVec 6) (p : Pixel) (s : State) : (cacheWrite i p s).colorspace = s.colorspace := rfl
@[simp] theorem cacheWrite_npix (i : BitVec 6) (p : Pixel) (s : State) : (cacheWrite i p s).npix = s.npix := rfl
@[simp] theorem cacheWrite_pxcnt (i : BitVec 6) (p : Pixel) (s : State) : (cacheWrite i p s).pxcnt = s.pxcnt := rfl
@[simp] theorem cacheWrite_run (i : BitVec 6) (p : Pixel) (s : State) : (cacheWrite i p s).run = s.run := rfl
@[simp] theorem cacheWrite_prev (i : BitVec 6) (p : Pixel) (s : State) : (cacheWrite i p s).prev = s.prev := rfl
@[simp] theorem cacheWrite_cache (i : BitVec 6) (p : Pixel) (s : State) : (cacheWrite i p s).cache = s.cache.set i.toNat p i.isLt := rfl
@[simp] theorem cacheWrite_outMem (i : BitVec 6) (p : Pixel) (s : State) : (cacheWrite i p s).outMem = s.outMem := rfl
@[simp] theorem cacheWrite_outLen (i : BitVec 6) (p : Pixel) (s : State) : (cacheWrite i p s).outLen = s.outLen := rfl
@[simp] theorem cacheWrite_inMem (i : BitVec 6) (p : Pixel) (s : State) : (cacheWrite i p s).inMem = s.inMem := rfl
@[simp] theorem cacheWrite_outCap (i : BitVec 6) (p : Pixel) (s : State) : (cacheWrite i p s).outCap = s.outCap := rfl
@[simp] theorem cacheWrite_hostq (i : BitVec 6) (p : Pixel) (s : State) : (cacheWrite i p s).hostq = s.hostq := rfl
@[simp] theorem cacheWrite_reply (i : BitVec 6) (p : Pixel) (s : State) : (cacheWrite i p s).reply = s.reply := rfl
@[simp] theorem cacheWrite_lenWritten (i : BitVec 6) (p : Pixel) (s : State) : (cacheWrite i p s).lenWritten = s.lenWritten := rfl

/-! ### outAppend -/

@[simp] theorem outAppend_phase (b : Byte) (s : State) : (outAppend b s).phase = s.phase := rfl
@[simp] theorem outAppend_err (b : Byte) (s : State) : (outAppend b s).err = s.err := rfl
@[simp] theorem outAppend_streamLen (b : Byte) (s : State) : (outAppend b s).streamLen = s.streamLen := rfl
@[simp] theorem outAppend_cur (b : Byte) (s : State) : (outAppend b s).cur = s.cur := rfl
@[simp] theorem outAppend_magicValid (b : Byte) (s : State) : (outAppend b s).magicValid = s.magicValid := rfl
@[simp] theorem outAppend_width (b : Byte) (s : State) : (outAppend b s).width = s.width := rfl
@[simp] theorem outAppend_height (b : Byte) (s : State) : (outAppend b s).height = s.height := rfl
@[simp] theorem outAppend_channels (b : Byte) (s : State) : (outAppend b s).channels = s.channels := rfl
@[simp] theorem outAppend_colorspace (b : Byte) (s : State) : (outAppend b s).colorspace = s.colorspace := rfl
@[simp] theorem outAppend_npix (b : Byte) (s : State) : (outAppend b s).npix = s.npix := rfl
@[simp] theorem outAppend_pxcnt (b : Byte) (s : State) : (outAppend b s).pxcnt = s.pxcnt := rfl
@[simp] theorem outAppend_run (b : Byte) (s : State) : (outAppend b s).run = s.run := rfl
@[simp] theorem outAppend_prev (b : Byte) (s : State) : (outAppend b s).prev = s.prev := rfl
@[simp] theorem outAppend_cache (b : Byte) (s : State) : (outAppend b s).cache = s.cache := rfl
@[simp] theorem outAppend_outMem (b : Byte) (s : State) : (outAppend b s).outMem = Memory.write s.outMem s.outLen.toNat b := rfl
@[simp] theorem outAppend_outLen (b : Byte) (s : State) : (outAppend b s).outLen = s.outLen + 1 := rfl
@[simp] theorem outAppend_inMem (b : Byte) (s : State) : (outAppend b s).inMem = s.inMem := rfl
@[simp] theorem outAppend_outCap (b : Byte) (s : State) : (outAppend b s).outCap = s.outCap := rfl
@[simp] theorem outAppend_hostq (b : Byte) (s : State) : (outAppend b s).hostq = s.hostq := rfl
@[simp] theorem outAppend_reply (b : Byte) (s : State) : (outAppend b s).reply = s.reply := rfl
@[simp] theorem outAppend_lenWritten (b : Byte) (s : State) : (outAppend b s).lenWritten = s.lenWritten := rfl

/-! ### appendPixel -/

@[simp] theorem appendPixel_phase (p : Pixel) (s : State) : (appendPixel p s).phase = s.phase := rfl
@[simp] theorem appendPixel_err (p : Pixel) (s : State) : (appendPixel p s).err = s.err := rfl
@[simp] theorem appendPixel_streamLen (p : Pixel) (s : State) : (appendPixel p s).streamLen = s.streamLen := rfl
@[simp] theorem appendPixel_cur (p : Pixel) (s : State) : (appendPixel p s).cur = s.cur := rfl
@[simp] theorem appendPixel_magicValid (p : Pixel) (s : State) : (appendPixel p s).magicValid = s.magicValid := rfl
@[simp] theorem appendPixel_width (p : Pixel) (s : State) : (appendPixel p s).width = s.width := rfl
@[simp] theorem appendPixel_height (p : Pixel) (s : State) : (appendPixel p s).height = s.height := rfl
@[simp] theorem appendPixel_channels (p : Pixel) (s : State) : (appendPixel p s).channels = s.channels := rfl
@[simp] theorem appendPixel_colorspace (p : Pixel) (s : State) : (appendPixel p s).colorspace = s.colorspace := rfl
@[simp] theorem appendPixel_npix (p : Pixel) (s : State) : (appendPixel p s).npix = s.npix := rfl
@[simp] theorem appendPixel_pxcnt (p : Pixel) (s : State) : (appendPixel p s).pxcnt = s.pxcnt := rfl
@[simp] theorem appendPixel_run (p : Pixel) (s : State) : (appendPixel p s).run = s.run := rfl
@[simp] theorem appendPixel_prev (p : Pixel) (s : State) : (appendPixel p s).prev = s.prev := rfl
@[simp] theorem appendPixel_cache (p : Pixel) (s : State) : (appendPixel p s).cache = s.cache := rfl
@[simp] theorem appendPixel_inMem (p : Pixel) (s : State) : (appendPixel p s).inMem = s.inMem := rfl
@[simp] theorem appendPixel_outCap (p : Pixel) (s : State) : (appendPixel p s).outCap = s.outCap := rfl
@[simp] theorem appendPixel_hostq (p : Pixel) (s : State) : (appendPixel p s).hostq = s.hostq := rfl
@[simp] theorem appendPixel_reply (p : Pixel) (s : State) : (appendPixel p s).reply = s.reply := rfl
@[simp] theorem appendPixel_lenWritten (p : Pixel) (s : State) : (appendPixel p s).lenWritten = s.lenWritten := rfl

/-! ### emit -/

@[simp] theorem emit_phase (p : Pixel) (s : State) : (emit p s).phase = s.phase := rfl
@[simp] theorem emit_err (p : Pixel) (s : State) : (emit p s).err = s.err := rfl
@[simp] theorem emit_streamLen (p : Pixel) (s : State) : (emit p s).streamLen = s.streamLen := rfl
@[simp] theorem emit_cur (p : Pixel) (s : State) : (emit p s).cur = s.cur := rfl
@[simp] theorem emit_magicValid (p : Pixel) (s : State) : (emit p s).magicValid = s.magicValid := rfl
@[simp] theorem emit_width (p : Pixel) (s : State) : (emit p s).width = s.width := rfl
@[simp] theorem emit_height (p : Pixel) (s : State) : (emit p s).height = s.height := rfl
@[simp] theorem emit_channels (p : Pixel) (s : State) : (emit p s).channels = s.channels := rfl
@[simp] theorem emit_colorspace (p : Pixel) (s : State) : (emit p s).colorspace = s.colorspace := rfl
@[simp] theorem emit_npix (p : Pixel) (s : State) : (emit p s).npix = s.npix := rfl
@[simp] theorem emit_pxcnt (p : Pixel) (s : State) : (emit p s).pxcnt = s.pxcnt + 1 := rfl
@[simp] theorem emit_run (p : Pixel) (s : State) : (emit p s).run = s.run := rfl
@[simp] theorem emit_prev (p : Pixel) (s : State) : (emit p s).prev = p := rfl
@[simp] theorem emit_cache (p : Pixel) (s : State) : (emit p s).cache = s.cache.set (pixelHash p).toNat p (pixelHash p).isLt := rfl
@[simp] theorem emit_outMem (p : Pixel) (s : State) : (emit p s).outMem = (appendPixel p s).outMem := rfl
@[simp] theorem emit_outLen (p : Pixel) (s : State) : (emit p s).outLen = (appendPixel p s).outLen := rfl
@[simp] theorem emit_inMem (p : Pixel) (s : State) : (emit p s).inMem = s.inMem := rfl
@[simp] theorem emit_outCap (p : Pixel) (s : State) : (emit p s).outCap = s.outCap := rfl
@[simp] theorem emit_hostq (p : Pixel) (s : State) : (emit p s).hostq = s.hostq := rfl
@[simp] theorem emit_reply (p : Pixel) (s : State) : (emit p s).reply = s.reply := rfl
@[simp] theorem emit_lenWritten (p : Pixel) (s : State) : (emit p s).lenWritten = s.lenWritten := rfl

/-! ### continueRun -/

@[simp] theorem continueRun_phase (s : State) : (continueRun s).phase = s.phase := rfl
@[simp] theorem continueRun_err (s : State) : (continueRun s).err = s.err := rfl
@[simp] theorem continueRun_streamLen (s : State) : (continueRun s).streamLen = s.streamLen := rfl
@[simp] theorem continueRun_cur (s : State) : (continueRun s).cur = s.cur := rfl
@[simp] theorem continueRun_magicValid (s : State) : (continueRun s).magicValid = s.magicValid := rfl
@[simp] theorem continueRun_width (s : State) : (continueRun s).width = s.width := rfl
@[simp] theorem continueRun_height (s : State) : (continueRun s).height = s.height := rfl
@[simp] theorem continueRun_channels (s : State) : (continueRun s).channels = s.channels := rfl
@[simp] theorem continueRun_colorspace (s : State) : (continueRun s).colorspace = s.colorspace := rfl
@[simp] theorem continueRun_npix (s : State) : (continueRun s).npix = s.npix := rfl
@[simp] theorem continueRun_pxcnt (s : State) : (continueRun s).pxcnt = s.pxcnt + 1 := rfl
@[simp] theorem continueRun_run (s : State) : (continueRun s).run = s.run - 1 := rfl
@[simp] theorem continueRun_prev (s : State) : (continueRun s).prev = s.prev := rfl
@[simp] theorem continueRun_cache (s : State) : (continueRun s).cache = s.cache.set (pixelHash s.prev).toNat s.prev (pixelHash s.prev).isLt := rfl
@[simp] theorem continueRun_outMem (s : State) : (continueRun s).outMem = (appendPixel s.prev s).outMem := rfl
@[simp] theorem continueRun_outLen (s : State) : (continueRun s).outLen = (appendPixel s.prev s).outLen := rfl
@[simp] theorem continueRun_inMem (s : State) : (continueRun s).inMem = s.inMem := rfl
@[simp] theorem continueRun_outCap (s : State) : (continueRun s).outCap = s.outCap := rfl
@[simp] theorem continueRun_hostq (s : State) : (continueRun s).hostq = s.hostq := rfl
@[simp] theorem continueRun_reply (s : State) : (continueRun s).reply = s.reply := rfl
@[simp] theorem continueRun_lenWritten (s : State) : (continueRun s).lenWritten = s.lenWritten := rfl

/-! ### raise -/

@[simp] theorem raise_phase (e : FormatError) (s : State) : (raise e s).phase = .error := rfl
@[simp] theorem raise_err (e : FormatError) (s : State) : (raise e s).err = some e := rfl
@[simp] theorem raise_streamLen (e : FormatError) (s : State) : (raise e s).streamLen = s.streamLen := rfl
@[simp] theorem raise_cur (e : FormatError) (s : State) : (raise e s).cur = s.cur := rfl
@[simp] theorem raise_magicValid (e : FormatError) (s : State) : (raise e s).magicValid = s.magicValid := rfl
@[simp] theorem raise_width (e : FormatError) (s : State) : (raise e s).width = s.width := rfl
@[simp] theorem raise_height (e : FormatError) (s : State) : (raise e s).height = s.height := rfl
@[simp] theorem raise_channels (e : FormatError) (s : State) : (raise e s).channels = s.channels := rfl
@[simp] theorem raise_colorspace (e : FormatError) (s : State) : (raise e s).colorspace = s.colorspace := rfl
@[simp] theorem raise_npix (e : FormatError) (s : State) : (raise e s).npix = s.npix := rfl
@[simp] theorem raise_pxcnt (e : FormatError) (s : State) : (raise e s).pxcnt = s.pxcnt := rfl
@[simp] theorem raise_run (e : FormatError) (s : State) : (raise e s).run = s.run := rfl
@[simp] theorem raise_prev (e : FormatError) (s : State) : (raise e s).prev = s.prev := rfl
@[simp] theorem raise_cache (e : FormatError) (s : State) : (raise e s).cache = s.cache := rfl
@[simp] theorem raise_outMem (e : FormatError) (s : State) : (raise e s).outMem = s.outMem := rfl
@[simp] theorem raise_outLen (e : FormatError) (s : State) : (raise e s).outLen = 0 := rfl
@[simp] theorem raise_inMem (e : FormatError) (s : State) : (raise e s).inMem = s.inMem := rfl
@[simp] theorem raise_outCap (e : FormatError) (s : State) : (raise e s).outCap = s.outCap := rfl
@[simp] theorem raise_hostq (e : FormatError) (s : State) : (raise e s).hostq = s.hostq := rfl
@[simp] theorem raise_reply (e : FormatError) (s : State) : (raise e s).reply = s.reply := rfl
@[simp] theorem raise_lenWritten (e : FormatError) (s : State) : (raise e s).lenWritten = s.lenWritten := rfl

/-! ### startDecode -/

@[simp] theorem startDecode_phase (s : State) : (startDecode s).phase = .header := rfl
@[simp] theorem startDecode_err (s : State) : (startDecode s).err = none := rfl
@[simp] theorem startDecode_streamLen (s : State) : (startDecode s).streamLen = s.streamLen := rfl
@[simp] theorem startDecode_cur (s : State) : (startDecode s).cur = 0 := rfl
@[simp] theorem startDecode_magicValid (s : State) : (startDecode s).magicValid = false := rfl
@[simp] theorem startDecode_width (s : State) : (startDecode s).width = 0 := rfl
@[simp] theorem startDecode_height (s : State) : (startDecode s).height = 0 := rfl
@[simp] theorem startDecode_channels (s : State) : (startDecode s).channels = 0 := rfl
@[simp] theorem startDecode_colorspace (s : State) : (startDecode s).colorspace = 0 := rfl
@[simp] theorem startDecode_npix (s : State) : (startDecode s).npix = 0 := rfl
@[simp] theorem startDecode_pxcnt (s : State) : (startDecode s).pxcnt = 0 := rfl
@[simp] theorem startDecode_run (s : State) : (startDecode s).run = 0 := rfl
@[simp] theorem startDecode_prev (s : State) : (startDecode s).prev = Config.prevInit := rfl
@[simp] theorem startDecode_cache (s : State) : (startDecode s).cache = Config.cacheInit := rfl
@[simp] theorem startDecode_outMem (s : State) : (startDecode s).outMem = s.outMem := rfl
@[simp] theorem startDecode_outLen (s : State) : (startDecode s).outLen = 0 := rfl
@[simp] theorem startDecode_inMem (s : State) : (startDecode s).inMem = s.inMem := rfl
@[simp] theorem startDecode_outCap (s : State) : (startDecode s).outCap = s.outCap := rfl
@[simp] theorem startDecode_hostq (s : State) : (startDecode s).hostq = s.hostq := rfl
@[simp] theorem startDecode_reply (s : State) : (startDecode s).reply = s.reply := rfl
@[simp] theorem startDecode_lenWritten (s : State) : (startDecode s).lenWritten = s.lenWritten := rfl

/-! ### commitHeader -/

@[simp] theorem commitHeader_phase (w h : BitVec 32) (c sp : Byte) (s : State) : (commitHeader w h c sp s).phase = .decode := rfl
@[simp] theorem commitHeader_err (w h : BitVec 32) (c sp : Byte) (s : State) : (commitHeader w h c sp s).err = s.err := rfl
@[simp] theorem commitHeader_streamLen (w h : BitVec 32) (c sp : Byte) (s : State) : (commitHeader w h c sp s).streamLen = s.streamLen := rfl
@[simp] theorem commitHeader_cur (w h : BitVec 32) (c sp : Byte) (s : State) : (commitHeader w h c sp s).cur = 14 := rfl
@[simp] theorem commitHeader_magicValid (w h : BitVec 32) (c sp : Byte) (s : State) : (commitHeader w h c sp s).magicValid = true := rfl
@[simp] theorem commitHeader_width (w h : BitVec 32) (c sp : Byte) (s : State) : (commitHeader w h c sp s).width = w := rfl
@[simp] theorem commitHeader_height (w h : BitVec 32) (c sp : Byte) (s : State) : (commitHeader w h c sp s).height = h := rfl
@[simp] theorem commitHeader_channels (w h : BitVec 32) (c sp : Byte) (s : State) : (commitHeader w h c sp s).channels = c := rfl
@[simp] theorem commitHeader_colorspace (w h : BitVec 32) (c sp : Byte) (s : State) : (commitHeader w h c sp s).colorspace = sp := rfl
@[simp] theorem commitHeader_npix (w h : BitVec 32) (c sp : Byte) (s : State) : (commitHeader w h c sp s).npix = pixelTotal w h := rfl
@[simp] theorem commitHeader_pxcnt (w h : BitVec 32) (c sp : Byte) (s : State) : (commitHeader w h c sp s).pxcnt = s.pxcnt := rfl
@[simp] theorem commitHeader_run (w h : BitVec 32) (c sp : Byte) (s : State) : (commitHeader w h c sp s).run = s.run := rfl
@[simp] theorem commitHeader_prev (w h : BitVec 32) (c sp : Byte) (s : State) : (commitHeader w h c sp s).prev = s.prev := rfl
@[simp] theorem commitHeader_cache (w h : BitVec 32) (c sp : Byte) (s : State) : (commitHeader w h c sp s).cache = s.cache := rfl
@[simp] theorem commitHeader_outMem (w h : BitVec 32) (c sp : Byte) (s : State) : (commitHeader w h c sp s).outMem = s.outMem := rfl
@[simp] theorem commitHeader_outLen (w h : BitVec 32) (c sp : Byte) (s : State) : (commitHeader w h c sp s).outLen = s.outLen := rfl
@[simp] theorem commitHeader_inMem (w h : BitVec 32) (c sp : Byte) (s : State) : (commitHeader w h c sp s).inMem = s.inMem := rfl
@[simp] theorem commitHeader_outCap (w h : BitVec 32) (c sp : Byte) (s : State) : (commitHeader w h c sp s).outCap = s.outCap := rfl
@[simp] theorem commitHeader_hostq (w h : BitVec 32) (c sp : Byte) (s : State) : (commitHeader w h c sp s).hostq = s.hostq := rfl
@[simp] theorem commitHeader_reply (w h : BitVec 32) (c sp : Byte) (s : State) : (commitHeader w h c sp s).reply = s.reply := rfl
@[simp] theorem commitHeader_lenWritten (w h : BitVec 32) (c sp : Byte) (s : State) : (commitHeader w h c sp s).lenWritten = s.lenWritten := rfl

/-! ### hardReset -/

@[simp] theorem hardReset_phase (s : State) : (hardReset s).phase = State.reset.phase := rfl
@[simp] theorem hardReset_err (s : State) : (hardReset s).err = State.reset.err := rfl
@[simp] theorem hardReset_streamLen (s : State) : (hardReset s).streamLen = State.reset.streamLen := rfl
@[simp] theorem hardReset_cur (s : State) : (hardReset s).cur = State.reset.cur := rfl
@[simp] theorem hardReset_magicValid (s : State) : (hardReset s).magicValid = State.reset.magicValid := rfl
@[simp] theorem hardReset_width (s : State) : (hardReset s).width = State.reset.width := rfl
@[simp] theorem hardReset_height (s : State) : (hardReset s).height = State.reset.height := rfl
@[simp] theorem hardReset_channels (s : State) : (hardReset s).channels = State.reset.channels := rfl
@[simp] theorem hardReset_colorspace (s : State) : (hardReset s).colorspace = State.reset.colorspace := rfl
@[simp] theorem hardReset_npix (s : State) : (hardReset s).npix = State.reset.npix := rfl
@[simp] theorem hardReset_pxcnt (s : State) : (hardReset s).pxcnt = State.reset.pxcnt := rfl
@[simp] theorem hardReset_run (s : State) : (hardReset s).run = State.reset.run := rfl
@[simp] theorem hardReset_prev (s : State) : (hardReset s).prev = State.reset.prev := rfl
@[simp] theorem hardReset_cache (s : State) : (hardReset s).cache = State.reset.cache := rfl
@[simp] theorem hardReset_outMem (s : State) : (hardReset s).outMem = State.reset.outMem := rfl
@[simp] theorem hardReset_outLen (s : State) : (hardReset s).outLen = State.reset.outLen := rfl
@[simp] theorem hardReset_inMem (s : State) : (hardReset s).inMem = State.reset.inMem := rfl
@[simp] theorem hardReset_outCap (s : State) : (hardReset s).outCap = s.outCap := rfl
@[simp] theorem hardReset_hostq (s : State) : (hardReset s).hostq = s.hostq := rfl
@[simp] theorem hardReset_reply (s : State) : (hardReset s).reply = s.reply := rfl
@[simp] theorem hardReset_lenWritten (s : State) : (hardReset s).lenWritten = State.reset.lenWritten := rfl

/-! ### placeBytes -/

@[simp] theorem placeBytes_phase (q : Position) (bs : List Byte) (s : State) : (placeBytes q bs s).phase = s.phase := rfl
@[simp] theorem placeBytes_err (q : Position) (bs : List Byte) (s : State) : (placeBytes q bs s).err = s.err := rfl
@[simp] theorem placeBytes_streamLen (q : Position) (bs : List Byte) (s : State) : (placeBytes q bs s).streamLen = max s.streamLen (fetchIndex q s + bs.length + Config.markerLen) := rfl
@[simp] theorem placeBytes_cur (q : Position) (bs : List Byte) (s : State) : (placeBytes q bs s).cur = s.cur := rfl
@[simp] theorem placeBytes_magicValid (q : Position) (bs : List Byte) (s : State) : (placeBytes q bs s).magicValid = s.magicValid := rfl
@[simp] theorem placeBytes_width (q : Position) (bs : List Byte) (s : State) : (placeBytes q bs s).width = s.width := rfl
@[simp] theorem placeBytes_height (q : Position) (bs : List Byte) (s : State) : (placeBytes q bs s).height = s.height := rfl
@[simp] theorem placeBytes_channels (q : Position) (bs : List Byte) (s : State) : (placeBytes q bs s).channels = s.channels := rfl
@[simp] theorem placeBytes_colorspace (q : Position) (bs : List Byte) (s : State) : (placeBytes q bs s).colorspace = s.colorspace := rfl
@[simp] theorem placeBytes_npix (q : Position) (bs : List Byte) (s : State) : (placeBytes q bs s).npix = s.npix := rfl
@[simp] theorem placeBytes_pxcnt (q : Position) (bs : List Byte) (s : State) : (placeBytes q bs s).pxcnt = s.pxcnt := rfl
@[simp] theorem placeBytes_run (q : Position) (bs : List Byte) (s : State) : (placeBytes q bs s).run = s.run := rfl
@[simp] theorem placeBytes_prev (q : Position) (bs : List Byte) (s : State) : (placeBytes q bs s).prev = s.prev := rfl
@[simp] theorem placeBytes_cache (q : Position) (bs : List Byte) (s : State) : (placeBytes q bs s).cache = s.cache := rfl
@[simp] theorem placeBytes_outMem (q : Position) (bs : List Byte) (s : State) : (placeBytes q bs s).outMem = s.outMem := rfl
@[simp] theorem placeBytes_outLen (q : Position) (bs : List Byte) (s : State) : (placeBytes q bs s).outLen = s.outLen := rfl
@[simp] theorem placeBytes_inMem (q : Position) (bs : List Byte) (s : State) : (placeBytes q bs s).inMem = Memory.writeAll s.inMem (fetchIndex q s) bs := rfl
@[simp] theorem placeBytes_outCap (q : Position) (bs : List Byte) (s : State) : (placeBytes q bs s).outCap = s.outCap := rfl
@[simp] theorem placeBytes_hostq (q : Position) (bs : List Byte) (s : State) : (placeBytes q bs s).hostq = s.hostq := rfl
@[simp] theorem placeBytes_reply (q : Position) (bs : List Byte) (s : State) : (placeBytes q bs s).reply = s.reply := rfl
@[simp] theorem placeBytes_lenWritten (q : Position) (bs : List Byte) (s : State) : (placeBytes q bs s).lenWritten = s.lenWritten := rfl

/-! ### advance -/

@[simp] theorem advance_phase (n : Nat) (owed : BitVec 6) (s : State) : (advance n owed s).phase = s.phase := rfl
@[simp] theorem advance_err (n : Nat) (owed : BitVec 6) (s : State) : (advance n owed s).err = s.err := rfl
@[simp] theorem advance_streamLen (n : Nat) (owed : BitVec 6) (s : State) : (advance n owed s).streamLen = s.streamLen := rfl
@[simp] theorem advance_cur (n : Nat) (owed : BitVec 6) (s : State) : (advance n owed s).cur = s.cur + n := rfl
@[simp] theorem advance_magicValid (n : Nat) (owed : BitVec 6) (s : State) : (advance n owed s).magicValid = s.magicValid := rfl
@[simp] theorem advance_width (n : Nat) (owed : BitVec 6) (s : State) : (advance n owed s).width = s.width := rfl
@[simp] theorem advance_height (n : Nat) (owed : BitVec 6) (s : State) : (advance n owed s).height = s.height := rfl
@[simp] theorem advance_channels (n : Nat) (owed : BitVec 6) (s : State) : (advance n owed s).channels = s.channels := rfl
@[simp] theorem advance_colorspace (n : Nat) (owed : BitVec 6) (s : State) : (advance n owed s).colorspace = s.colorspace := rfl
@[simp] theorem advance_npix (n : Nat) (owed : BitVec 6) (s : State) : (advance n owed s).npix = s.npix := rfl
@[simp] theorem advance_pxcnt (n : Nat) (owed : BitVec 6) (s : State) : (advance n owed s).pxcnt = s.pxcnt := rfl
@[simp] theorem advance_run (n : Nat) (owed : BitVec 6) (s : State) : (advance n owed s).run = owed := rfl
@[simp] theorem advance_prev (n : Nat) (owed : BitVec 6) (s : State) : (advance n owed s).prev = s.prev := rfl
@[simp] theorem advance_cache (n : Nat) (owed : BitVec 6) (s : State) : (advance n owed s).cache = s.cache := rfl
@[simp] theorem advance_outMem (n : Nat) (owed : BitVec 6) (s : State) : (advance n owed s).outMem = s.outMem := rfl
@[simp] theorem advance_outLen (n : Nat) (owed : BitVec 6) (s : State) : (advance n owed s).outLen = s.outLen := rfl
@[simp] theorem advance_inMem (n : Nat) (owed : BitVec 6) (s : State) : (advance n owed s).inMem = s.inMem := rfl
@[simp] theorem advance_outCap (n : Nat) (owed : BitVec 6) (s : State) : (advance n owed s).outCap = s.outCap := rfl
@[simp] theorem advance_hostq (n : Nat) (owed : BitVec 6) (s : State) : (advance n owed s).hostq = s.hostq := rfl
@[simp] theorem advance_reply (n : Nat) (owed : BitVec 6) (s : State) : (advance n owed s).reply = s.reply := rfl
@[simp] theorem advance_lenWritten (n : Nat) (owed : BitVec 6) (s : State) : (advance n owed s).lenWritten = s.lenWritten := rfl

/-! ### finish -/

@[simp] theorem finish_phase (s : State) : (finish s).phase = .done := rfl
@[simp] theorem finish_err (s : State) : (finish s).err = s.err := rfl
@[simp] theorem finish_streamLen (s : State) : (finish s).streamLen = s.streamLen := rfl
@[simp] theorem finish_cur (s : State) : (finish s).cur = s.cur := rfl
@[simp] theorem finish_magicValid (s : State) : (finish s).magicValid = s.magicValid := rfl
@[simp] theorem finish_width (s : State) : (finish s).width = s.width := rfl
@[simp] theorem finish_height (s : State) : (finish s).height = s.height := rfl
@[simp] theorem finish_channels (s : State) : (finish s).channels = s.channels := rfl
@[simp] theorem finish_colorspace (s : State) : (finish s).colorspace = s.colorspace := rfl
@[simp] theorem finish_npix (s : State) : (finish s).npix = s.npix := rfl
@[simp] theorem finish_pxcnt (s : State) : (finish s).pxcnt = s.pxcnt := rfl
@[simp] theorem finish_run (s : State) : (finish s).run = s.run := rfl
@[simp] theorem finish_prev (s : State) : (finish s).prev = s.prev := rfl
@[simp] theorem finish_cache (s : State) : (finish s).cache = s.cache := rfl
@[simp] theorem finish_outMem (s : State) : (finish s).outMem = s.outMem := rfl
@[simp] theorem finish_outLen (s : State) : (finish s).outLen = s.outLen := rfl
@[simp] theorem finish_inMem (s : State) : (finish s).inMem = s.inMem := rfl
@[simp] theorem finish_outCap (s : State) : (finish s).outCap = s.outCap := rfl
@[simp] theorem finish_hostq (s : State) : (finish s).hostq = s.hostq := rfl
@[simp] theorem finish_reply (s : State) : (finish s).reply = s.reply := rfl
@[simp] theorem finish_lenWritten (s : State) : (finish s).lenWritten = s.lenWritten := rfl

/-! ### withTurns -/

@[simp] theorem withTurns_phase (q : List HostTurn) (s : State) : (withTurns q s).phase = s.phase := rfl
@[simp] theorem withTurns_err (q : List HostTurn) (s : State) : (withTurns q s).err = s.err := rfl
@[simp] theorem withTurns_streamLen (q : List HostTurn) (s : State) : (withTurns q s).streamLen = s.streamLen := rfl
@[simp] theorem withTurns_cur (q : List HostTurn) (s : State) : (withTurns q s).cur = s.cur := rfl
@[simp] theorem withTurns_magicValid (q : List HostTurn) (s : State) : (withTurns q s).magicValid = s.magicValid := rfl
@[simp] theorem withTurns_width (q : List HostTurn) (s : State) : (withTurns q s).width = s.width := rfl
@[simp] theorem withTurns_height (q : List HostTurn) (s : State) : (withTurns q s).height = s.height := rfl
@[simp] theorem withTurns_channels (q : List HostTurn) (s : State) : (withTurns q s).channels = s.channels := rfl
@[simp] theorem withTurns_colorspace (q : List HostTurn) (s : State) : (withTurns q s).colorspace = s.colorspace := rfl
@[simp] theorem withTurns_npix (q : List HostTurn) (s : State) : (withTurns q s).npix = s.npix := rfl
@[simp] theorem withTurns_pxcnt (q : List HostTurn) (s : State) : (withTurns q s).pxcnt = s.pxcnt := rfl
@[simp] theorem withTurns_run (q : List HostTurn) (s : State) : (withTurns q s).run = s.run := rfl
@[simp] theorem withTurns_prev (q : List HostTurn) (s : State) : (withTurns q s).prev = s.prev := rfl
@[simp] theorem withTurns_cache (q : List HostTurn) (s : State) : (withTurns q s).cache = s.cache := rfl
@[simp] theorem withTurns_outMem (q : List HostTurn) (s : State) : (withTurns q s).outMem = s.outMem := rfl
@[simp] theorem withTurns_outLen (q : List HostTurn) (s : State) : (withTurns q s).outLen = s.outLen := rfl
@[simp] theorem withTurns_inMem (q : List HostTurn) (s : State) : (withTurns q s).inMem = s.inMem := rfl
@[simp] theorem withTurns_outCap (q : List HostTurn) (s : State) : (withTurns q s).outCap = s.outCap := rfl
@[simp] theorem withTurns_hostq (q : List HostTurn) (s : State) : (withTurns q s).hostq = q := rfl
@[simp] theorem withTurns_reply (q : List HostTurn) (s : State) : (withTurns q s).reply = s.reply := rfl
@[simp] theorem withTurns_lenWritten (q : List HostTurn) (s : State) : (withTurns q s).lenWritten = s.lenWritten := rfl

/-! ### replyWith -/

@[simp] theorem replyWith_phase (v : Option Nat) (s : State) : (replyWith v s).phase = s.phase := rfl
@[simp] theorem replyWith_err (v : Option Nat) (s : State) : (replyWith v s).err = s.err := rfl
@[simp] theorem replyWith_streamLen (v : Option Nat) (s : State) : (replyWith v s).streamLen = s.streamLen := rfl
@[simp] theorem replyWith_cur (v : Option Nat) (s : State) : (replyWith v s).cur = s.cur := rfl
@[simp] theorem replyWith_magicValid (v : Option Nat) (s : State) : (replyWith v s).magicValid = s.magicValid := rfl
@[simp] theorem replyWith_width (v : Option Nat) (s : State) : (replyWith v s).width = s.width := rfl
@[simp] theorem replyWith_height (v : Option Nat) (s : State) : (replyWith v s).height = s.height := rfl
@[simp] theorem replyWith_channels (v : Option Nat) (s : State) : (replyWith v s).channels = s.channels := rfl
@[simp] theorem replyWith_colorspace (v : Option Nat) (s : State) : (replyWith v s).colorspace = s.colorspace := rfl
@[simp] theorem replyWith_npix (v : Option Nat) (s : State) : (replyWith v s).npix = s.npix := rfl
@[simp] theorem replyWith_pxcnt (v : Option Nat) (s : State) : (replyWith v s).pxcnt = s.pxcnt := rfl
@[simp] theorem replyWith_run (v : Option Nat) (s : State) : (replyWith v s).run = s.run := rfl
@[simp] theorem replyWith_prev (v : Option Nat) (s : State) : (replyWith v s).prev = s.prev := rfl
@[simp] theorem replyWith_cache (v : Option Nat) (s : State) : (replyWith v s).cache = s.cache := rfl
@[simp] theorem replyWith_outMem (v : Option Nat) (s : State) : (replyWith v s).outMem = s.outMem := rfl
@[simp] theorem replyWith_outLen (v : Option Nat) (s : State) : (replyWith v s).outLen = s.outLen := rfl
@[simp] theorem replyWith_inMem (v : Option Nat) (s : State) : (replyWith v s).inMem = s.inMem := rfl
@[simp] theorem replyWith_outCap (v : Option Nat) (s : State) : (replyWith v s).outCap = s.outCap := rfl
@[simp] theorem replyWith_hostq (v : Option Nat) (s : State) : (replyWith v s).hostq = s.hostq := rfl
@[simp] theorem replyWith_reply (v : Option Nat) (s : State) : (replyWith v s).reply = v := rfl
@[simp] theorem replyWith_lenWritten (v : Option Nat) (s : State) : (replyWith v s).lenWritten = s.lenWritten := rfl

/-! ### LIMIT and reads of IN follow their fields -/

@[simp] theorem limit_withTurns (q : List HostTurn) (s : State) : (withTurns q s).limit = s.limit := rfl
@[simp] theorem memRead1_withTurns (q : List HostTurn) (s : State) (a : Nat) :
    memRead1 (withTurns q s) a = memRead1 s a := rfl
@[simp] theorem limit_emit (p : Pixel) (s : State) : (emit p s).limit = s.limit := rfl
@[simp] theorem limit_advance (n : Nat) (owed : BitVec 6) (s : State) : (advance n owed s).limit = s.limit := rfl

end Sys2Proof.Machine
end

