-- ==== Sys2Proof/Laws/Ops.lean ====
section
/-! SUPPORT. One lemma for each shared operation, saying everything it can do. -/

namespace Sys2Proof.Machine

/-! ### The cache -/

/-- A read after a cache write. -/
theorem cacheRead_set (c : Vector Pixel 64) (i j : BitVec 6) (p : Pixel) :
    cacheRead (c.set i.toNat p i.isLt) j = if j = i then p else cacheRead c j := by
  unfold cacheRead
  rw [Vector.getElem_set]
  by_cases h : j = i
  · simp [h]
  · rw [if_neg h, if_neg fun hn => h (BitVec.eq_of_toNat_eq hn.symm)]

@[simp] theorem cacheRead_cacheInit (i : BitVec 6) : cacheRead Config.cacheInit i = Config.zeroPixel := by
  simp [cacheRead, Config.cacheInit]

/-! ### Reading IN -/

/-- Two states with the same stream read the same. -/
theorem memRead1_congr {s t : State} (hl : s.streamLen = t.streamLen)
    (hm : ∀ a, a < s.streamLen → Memory.read s.inMem a = Memory.read t.inMem a) (a : Nat) :
    memRead1 s a = memRead1 t a := by
  unfold memRead1
  rw [← hl]
  split
  · exact hm a (by omega)
  · rfl

/-- A fetch that succeeds: the right number of bytes, each the byte at its index. -/
theorem fetchBytes_ok {s : State} {a n : Nat} {bs : List Byte} (h : fetchBytes s a n = .ok bs) :
    bs.length = n ∧ ∀ j (hj : j < bs.length), memRead1 s (a + j) = some bs[j] := by
  induction n generalizing a bs with
  | zero =>
    simp only [fetchBytes, Except.ok.injEq] at h
    subst h
    simp
  | succ n ih =>
    simp only [fetchBytes] at h
    split at h
    · cases h
    · rename_i b hb
      split at h
      · cases h
      · rename_i cs hcs
        cases h
        obtain ⟨hl, hr⟩ := ih hcs
        refine ⟨by simp [hl], fun j hj => ?_⟩
        cases j with
        | zero => simpa using hb
        | succ j =>
          have := hr j (by simpa using hj)
          rw [show a + (j + 1) = a + 1 + j by omega, this]
          rfl

/-- A fetch that fails names an index that has no byte. -/
theorem fetchBytes_error {s : State} {a n k : Nat} (h : fetchBytes s a n = .error k) :
    memRead1 s k = none ∧ a ≤ k ∧ k < a + n := by
  induction n generalizing a with
  | zero => simp [fetchBytes] at h
  | succ n ih =>
    simp only [fetchBytes] at h
    split at h
    · rename_i hb
      cases h
      exact ⟨hb, by omega, by omega⟩
    · split at h
      · rename_i e he
        cases h
        have := ih he
        exact ⟨this.1, by omega, by omega⟩
      · cases h

/-- Bytes that are there are fetched. -/
theorem fetchBytes_of_read {s : State} {a : Nat} {bs : List Byte}
    (h : ∀ j (hj : j < bs.length), memRead1 s (a + j) = some bs[j]) : fetchBytes s a bs.length = .ok bs := by
  induction bs generalizing a with
  | nil => rfl
  | cons b bs ih =>
    have h0 := h 0 (by simp)
    have hs : fetchBytes s (a + 1) bs.length = .ok bs := ih fun j hj => by
      have := h (j + 1) (by simpa using hj)
      simpa [Nat.add_assoc, Nat.add_comm 1 j] using this
    simp only [List.length_cons, fetchBytes]
    simp only [Nat.add_zero, List.getElem_cons_zero] at h0
    simp [h0, hs]

/-! ### Meanings -/

/-- An opcode raises UnexpectedEndOfStream or emits its pixel; there is no third case. -/
theorem runOpcode_cases {n : Nat} {p : Pixel} {owed : BitVec 6} {s : State}
    {o : Host.Outcome State Fault Refusal} (h : runOpcode n p owed s = o) :
    (s.limit < s.cur + n ∧ o = .next (raise .unexpectedEndOfStream s)) ∨
      (s.cur + n ≤ s.limit ∧ o = .next (emit p (advance n owed s))) := by
  unfold runOpcode at h
  split at h
  · exact .inl ⟨by omega, h.symm⟩
  · exact .inr ⟨by omega, h.symm⟩

theorem runOpcode_fits {n : Nat} {p : Pixel} {owed : BitVec 6} {s : State} (h : s.cur + n ≤ s.limit) :
    runOpcode n p owed s = .next (emit p (advance n owed s)) := by
  unfold runOpcode
  rw [if_neg (by omega)]

theorem runOpcode_cut {n : Nat} {p : Pixel} {owed : BitVec 6} {s : State} (h : s.limit < s.cur + n) :
    runOpcode n p owed s = .next (raise .unexpectedEndOfStream s) := by
  unfold runOpcode
  rw [if_pos h]

/-- HDR takes one of its three errors, is refused for want of capacity, or commits the header. -/
theorem execHdr_cases {m w h : BitVec 32} {c sp : Byte} {s : State} {o : Host.Outcome State Fault Refusal}
    (ho : execHdr m w h c sp s = o) :
    (s.streamLen < 22 ∧ o = .next (raise .truncated s)) ∨
      (22 ≤ s.streamLen ∧ m ≠ Config.magic ∧ o = .next (raise .badMagic s)) ∨
      (22 ≤ s.streamLen ∧ m = Config.magic ∧ c ≠ 3 ∧ c ≠ 4 ∧ o = .next (raise .invalidChannelCount s)) ∨
      (22 ≤ s.streamLen ∧ m = Config.magic ∧ (c = 3 ∨ c = 4) ∧ exceedsCapacity w h c s.outCap = true ∧
        o = .refused .outputCapacity) ∨
      (22 ≤ s.streamLen ∧ m = Config.magic ∧ (c = 3 ∨ c = 4) ∧ exceedsCapacity w h c s.outCap = false ∧
        o = .next (commitHeader w h c sp s)) := by
  unfold execHdr at ho
  split at ho
  · rename_i hl
    exact .inl ⟨by simpa using hl, ho.symm⟩
  · rename_i hl
    replace hl : 22 ≤ s.streamLen := by simpa using hl
    split at ho
    · rename_i hm
      exact .inr (.inl ⟨hl, hm, ho.symm⟩)
    · rename_i hm
      replace hm : m = Config.magic := by simpa using hm
      split at ho
      · rename_i hc
        exact .inr (.inr (.inl ⟨hl, hm, hc.1, hc.2, ho.symm⟩))
      · rename_i hc
        have hc : c = 3 ∨ c = 4 := by
          by_cases h3 : c = 3
          · exact .inl h3
          · exact .inr (by
              by_contra h4
              exact hc ⟨h3, h4⟩)
        split at ho
        · rename_i hx
          exact .inr (.inr (.inr (.inl ⟨hl, hm, hc, hx, ho.symm⟩)))
        · rename_i hx
          exact .inr (.inr (.inr (.inr ⟨hl, hm, hc, by simpa using hx, ho.symm⟩)))

/-- Every opcode is `runOpcode` of its size, its pixel and the run it leaves owed. -/
theorem exec_opcode {i : Instr} (h : i.position = .opcode) (s : State) :
    ∃ p owed, exec i s = runOpcode i.size p owed s ∧ (owed = s.run ∨ i = .run owed) := by
  cases i with
  | hdr => cases h
  | rgb r g b => exact ⟨_, _, rfl, .inl rfl⟩
  | rgba r g b a => exact ⟨_, _, rfl, .inl rfl⟩
  | run f => exact ⟨_, _, rfl, .inr rfl⟩
  | index i => exact ⟨_, _, rfl, .inl rfl⟩
  | diff a b c => exact ⟨_, _, rfl, .inl rfl⟩
  | luma a b c => exact ⟨_, _, rfl, .inl rfl⟩

end Sys2Proof.Machine
end

