-- ==== Sys2Proof/Laws/Emit.lean ====
section
/-! SUPPORT. Everything Emit does, said once: `Emits` holds between the state an opcode starts from and the state it
leaves. -/

namespace Sys2Proof.Machine

theorem appendPixel_outLen (p : Pixel) (s : State) :
    (appendPixel p s).outLen = s.outLen + (if s.channels = 4 then 4 else 3) := by
  have h3 : (outAppend p.b (outAppend p.g (outAppend p.r s))).outLen = s.outLen + 3 := by
    simp only [outAppend_outLen, BitVec.add_assoc]
    rfl
  have h4 : (outAppend p.a (outAppend p.b (outAppend p.g (outAppend p.r s)))).outLen = s.outLen + 4 := by
    simp only [outAppend_outLen, BitVec.add_assoc]
    rfl
  unfold appendPixel
  by_cases h : s.channels = 4
  · rw [if_pos h]
    exact (if_pos h).trans h4
  · rw [if_neg h]
    exact (if_neg h).trans h3

/-- What OUT reads after a pixel was appended. -/
theorem appendPixel_read (p : Pixel) (s : State) (k : Nat) :
    Memory.read (appendPixel p s).outMem k =
      if s.channels = 4 ∧ k = (s.outLen + 3).toNat then some p.a
      else if k = (s.outLen + 2).toNat then some p.b
      else if k = (s.outLen + 1).toNat then some p.g
      else if k = s.outLen.toNat then some p.r
      else Memory.read s.outMem k := by
  have e2 : s.outLen + 1 + 1 = s.outLen + 2 := by
    rw [BitVec.add_assoc]
    rfl
  have e3 : s.outLen + 2 + 1 = s.outLen + 3 := by
    rw [BitVec.add_assoc]
    rfl
  unfold appendPixel
  by_cases h : s.channels = 4#8
  · simp only [h, if_true, outAppend_outMem, outAppend_outLen, Memory.read_write, e2, e3]
    simp
  · rw [if_neg fun hx : s.channels = 4 ∧ _ => h hx.1]
    simp only [h, if_false, outAppend_outMem, outAppend_outLen, Memory.read_write, e2]

theorem appendPixel_wf {s : State} (h : Memory.wf s.outMem) (p : Pixel) : Memory.wf (appendPixel p s).outMem := by
  have h1 := Memory.write_wf h s.outLen.toNat p.r
  have h2 := Memory.write_wf h1 (s.outLen + 1).toNat p.g
  have h3 := Memory.write_wf h2 (s.outLen + 1 + 1).toNat p.b
  unfold appendPixel
  by_cases hc : s.channels = 4#8
  · simp only [hc, if_true]
    exact Memory.write_wf h3 _ _
  · simp only [hc, if_false]
    exact h3

/-- The four addresses of a pixel in OUT are different ones. -/
theorem outLen_add_ne (x : BitVec 66) {i j : Nat} (hi : i < 4) (hj : j < 4) (h : i ≠ j) :
    (x + BitVec.ofNat 66 i).toNat ≠ (x + BitVec.ofNat 66 j).toNat := by
  have := x.isLt
  simp only [BitVec.toNat_add, BitVec.toNat_ofNat]
  omega

/-- Emit does what `Emits` says, whatever the step moves CUR by and leaves owed. -/
theorem emits_emit (p : Pixel) (s : State) (n : Nat) (owed : BitVec 6) :
    Emits p s (emit p (advance n owed s)) := by
  have ne (i j : Nat) (hi : i < 4) (hj : j < 4) (h : i ≠ j) := outLen_add_ne s.outLen hi hj h
  have n0 (j : Nat) (hj : j < 4) (h : 0 ≠ j) : s.outLen.toNat ≠ (s.outLen + BitVec.ofNat 66 j).toNat := by
    simpa using ne 0 j (by omega) hj h
  have n01 : s.outLen.toNat ≠ (s.outLen + 1).toNat := n0 1 (by omega) (by omega)
  have n02 : s.outLen.toNat ≠ (s.outLen + 2).toNat := n0 2 (by omega) (by omega)
  have n03 : s.outLen.toNat ≠ (s.outLen + 3).toNat := n0 3 (by omega) (by omega)
  have n12 : (s.outLen + 1).toNat ≠ (s.outLen + 2).toNat := ne 1 2 (by omega) (by omega) (by omega)
  have n13 : (s.outLen + 1).toNat ≠ (s.outLen + 3).toNat := ne 1 3 (by omega) (by omega) (by omega)
  have n23 : (s.outLen + 2).toNat ≠ (s.outLen + 3).toNat := ne 2 3 (by omega) (by omega) (by omega)
  have hr : ∀ k, Memory.read (emit p (advance n owed s)).outMem k =
      if s.channels = 4 ∧ k = (s.outLen + 3).toNat then some p.a
      else if k = (s.outLen + 2).toNat then some p.b
      else if k = (s.outLen + 1).toNat then some p.g
      else if k = s.outLen.toNat then some p.r
      else Memory.read s.outMem k := appendPixel_read p (advance n owed s)
  constructor
  · simp [cacheRead_set]
  · intro j hj
    simp [cacheRead_set, hj]
  · rfl
  · rfl
  · exact appendPixel_outLen p (advance n owed s)
  · rw [hr, if_neg fun hx => n03 hx.2, if_neg n02, if_neg n01, if_pos rfl]
  · rw [hr, if_neg fun hx => n13 hx.2, if_neg n12, if_pos rfl]
  · rw [hr, if_neg fun hx => n23 hx.2, if_pos rfl]
  · intro h
    rw [hr, if_pos ⟨h, rfl⟩]
  · intro k k0 k1 k2 k3
    rw [hr, if_neg fun hx => k3 hx.1 hx.2, if_neg k2, if_neg k1, if_neg k0]
  · exact ⟨rfl, rfl, rfl, rfl⟩
  · exact ⟨rfl, rfl, rfl, rfl, rfl, rfl⟩
  · exact ⟨rfl, rfl, rfl, rfl⟩

end Sys2Proof.Machine
end

