-- ==== Sys2Proof/Laws/PerInstr.lean ====
section
/-! SUPPORT. Statements for all instructions, made per instruction. -/

namespace Sys2Proof.Laws.EncodedSize

/-- The encoder writes as many bytes as the format of the instruction has (R71, R72). -/
def Statement (i : Instr) : Prop := (encode i).length = i.size

theorem hdr (magic width height : BitVec 32) (channels colorspace : Byte) :
    Statement (.hdr magic width height channels colorspace) := rfl

theorem rgb (r g b : Byte) : Statement (.rgb r g b) := rfl

theorem rgba (r g b a : Byte) : Statement (.rgba r g b a) := rfl

theorem run (frun : BitVec 6) : Statement (.run frun) := rfl

theorem index (idx : BitVec 6) : Statement (.index idx) := rfl

theorem diff (fr fg fb : BitVec 2) : Statement (.diff fr fg fb) := rfl

theorem luma (fdg : BitVec 6) (frg fbg : BitVec 4) : Statement (.luma fdg frg fbg) := rfl

end Sys2Proof.Laws.EncodedSize
end

