-- ==== Sys2Proof/Laws/Step.lean ====
section
/-! SUPPORT. What a step can do, said once. Invariants are derived from these and never unfold the step. -/

namespace Sys2Proof.Machine

/-- The HEADER step: Truncated, a byte that was never placed, or HDR on the record at index 0. -/
theorem headerStep_cases {s : State} {o : Host.Outcome State Fault Refusal} (h : headerStep s = o) :
    (s.streamLen < 22 ∧ o = .next (raise .truncated s)) ∨
      (∃ k, 22 ≤ s.streamLen ∧ k < 14 ∧ memRead1 s k = none ∧ o = .fault (.noStreamByte k)) ∨
      (∃ bs m w ht c sp, 22 ≤ s.streamLen ∧ fetchBytes s 0 14 = .ok bs ∧
        decodeHeader bs = .ok (.hdr m w ht c sp, []) ∧ o = execHdr m w ht c sp s) := by
  unfold headerStep at h
  split at h
  · rename_i hl
    exact .inl ⟨by simpa using hl, h.symm⟩
  · rename_i hl
    replace hl : 22 ≤ s.streamLen := by simpa using hl
    split at h
    · rename_i k hk
      have := fetchBytes_error hk
      simp only [Config.headerLen] at this
      exact .inr (.inl ⟨k, hl, by omega, this.1, h.symm⟩)
    · rename_i bs hbs
      obtain ⟨i, hi, hp⟩ := decodeHeader_exact (bs := bs) (by simpa using (fetchBytes_ok hbs).1)
      simp only [decode, hi] at h
      cases i with
      | hdr m w ht c sp => exact .inr (.inr ⟨bs, m, w, ht, c, sp, hl, hbs, hi, h.symm⟩)
      | rgb | rgba | run | index | diff | luma => cases hp

/-- The fetch: nothing left, a byte that was never placed, an opcode cut by LIMIT, or one opcode executed. -/
theorem fetchAndRun_cases {s : State} {o : Host.Outcome State Fault Refusal} (h : fetchAndRun s = o) :
    (s.limit ≤ s.cur ∧ o = .next (raise .unexpectedEndOfStream s)) ∨
      (∃ k, s.cur ≤ k ∧ k < s.limit ∧ memRead1 s k = none ∧ o = .fault (.noStreamByte k)) ∨
      (∃ b0, s.cur < s.limit ∧ memRead1 s s.cur = some b0 ∧ s.limit < s.cur + oplen b0 ∧
        o = .next (raise .unexpectedEndOfStream s)) ∨
      (∃ b0 bs i, memRead1 s s.cur = some b0 ∧ s.cur + oplen b0 ≤ s.limit ∧
        fetchBytes s s.cur (oplen b0) = .ok bs ∧ decodeOpcode bs = .ok (i, []) ∧ i.position = .opcode ∧
        i.wf = true ∧ i.size = oplen b0 ∧ o = exec i s) := by
  unfold fetchAndRun at h
  split at h
  · exact .inl ⟨by omega, h.symm⟩
  · rename_i hc
    split at h
    · rename_i hb
      exact .inr (.inl ⟨s.cur, by omega, by omega, hb, h.symm⟩)
    · rename_i b0 hb
      split at h
      · rename_i hx
        exact .inr (.inr (.inl ⟨b0, by omega, hb, by omega, h.symm⟩))
      · rename_i hx
        split at h
        · rename_i k hk
          have := fetchBytes_error hk
          exact .inr (.inl ⟨k, by omega, by omega, this.1, h.symm⟩)
        · rename_i bs hbs
          obtain ⟨hl, hr⟩ := fetchBytes_ok hbs
          have hpos := oplen_pos b0
          match bs, hl, hr, hbs, h with
          | [], hl, _, _, _ =>
            simp only [List.length_nil] at hl
            omega
          | c :: cs, hl, hr, hbs, h =>
            have hc0 : c = b0 := by
              have := hr 0 (by simp)
              simpa [hb] using this.symm
            subst hc0
            obtain ⟨i, hi⟩ := decodeOpcode_exact (b0 := c) (rest := cs) (by simpa using hl)
            simp only [decode, hi] at h
            obtain ⟨hp, hw, hsz⟩ := decodeOpcode_ok hi
            exact .inr (.inr (.inr ⟨c, _, i, hb, by omega, hbs, hi, hp, hw, hsz, h.symm⟩))

/-- What executing a fetched opcode can do: it emits one pixel. -/
theorem exec_fetched {i : Instr} {s : State} (hp : i.position = .opcode) (hf : s.cur + i.size ≤ s.limit) :
    ∃ p owed, exec i s = .next (emit p (advance i.size owed s)) ∧
      (owed = s.run ∨ i = .run owed) := by
  obtain ⟨p, owed, he, ho⟩ := exec_opcode hp s
  exact ⟨p, owed, by rw [he, runOpcode_fits hf], ho⟩

/-- A DECODE step that answers a next state finishes, continues a run, raises, or emits one fetched pixel. -/
theorem decodeStep_next {s t : State} (h : decodeStep s = .next t) :
    (s.pxcnt = s.npix ∧ t = finish s) ∨
      (s.pxcnt ≠ s.npix ∧ s.run ≠ 0 ∧ t = continueRun s) ∨
      (s.pxcnt ≠ s.npix ∧ s.run = 0 ∧ t = raise .unexpectedEndOfStream s) ∨
      (s.pxcnt ≠ s.npix ∧ s.run = 0 ∧ ∃ (i : Instr) (p : Pixel) (owed : BitVec 6), i.position = .opcode ∧
        i.wf = true ∧ s.cur + i.size ≤ s.limit ∧ (owed = 0 ∨ i = .run owed) ∧ exec i s = .next t ∧
        t = emit p (advance i.size owed s)) := by
  unfold decodeStep at h
  split at h
  · rename_i hd
    cases h
    exact .inl ⟨hd, rfl⟩
  · rename_i hd
    split at h
    · rename_i hr
      cases h
      exact .inr (.inl ⟨hd, hr, rfl⟩)
    · rename_i hr
      replace hr : s.run = 0 := by simpa using hr
      rcases fetchAndRun_cases h with ⟨_, ho⟩ | ⟨_, _, _, _, ho⟩ | ⟨_, _, _, _, ho⟩ |
        ⟨b0, bs, i, _, hf, _, _, hp, hw, hs, ho⟩
      · cases ho
        exact .inr (.inr (.inl ⟨hd, hr, rfl⟩))
      · cases ho
      · cases ho
        exact .inr (.inr (.inl ⟨hd, hr, rfl⟩))
      · obtain ⟨p, owed, he, hw'⟩ := exec_fetched hp (s := s) (by omega)
        rw [hr] at hw'
        have ht : t = emit p (advance i.size owed s) := by
          have := ho.trans he
          simpa using this
        exact .inr (.inr (.inr ⟨hd, hr, i, p, owed, hp, hw, by omega, hw', ho.symm, ht⟩))

/-- A HEADER step that answers a next state raises one of its three errors or commits a header. -/
theorem headerStep_next {s t : State} (h : headerStep s = .next t) :
    (∃ e, e ≠ .unexpectedEndOfStream ∧ t = raise e s) ∨
      (∃ w ht c sp, 22 ≤ s.streamLen ∧ (c = 3 ∨ c = 4) ∧ exceedsCapacity w ht c s.outCap = false ∧
        t = commitHeader w ht c sp s) := by
  rcases headerStep_cases h with ⟨_, ho⟩ | ⟨_, _, _, _, ho⟩ | ⟨_, m, w, ht, c, sp, hl, _, _, ho⟩
  · cases ho
    exact .inl ⟨_, by decide, rfl⟩
  · cases ho
  · rcases execHdr_cases ho.symm with ⟨_, ho⟩ | ⟨_, _, ho⟩ | ⟨_, _, _, _, ho⟩ | ⟨_, _, _, _, ho⟩ |
      ⟨_, _, hc, hx, ho⟩
    · cases ho
      exact .inl ⟨_, by decide, rfl⟩
    · cases ho
      exact .inl ⟨_, by decide, rfl⟩
    · cases ho
      exact .inl ⟨_, by decide, rfl⟩
    · cases ho
    · cases ho
      exact .inr ⟨w, ht, c, sp, hl, hc, hx, rfl⟩

/-- A step of the block that answers a next state: nothing, or a HEADER or DECODE step in its phase. -/
theorem blockStep_next {s t : State} (h : blockStep s = .next t) :
    (s.phase.busy = false ∧ t = s) ∨ (s.phase = .header ∧ headerStep s = .next t) ∨
      (s.phase = .decode ∧ decodeStep s = .next t) := by
  unfold blockStep at h
  cases hp : s.phase with
  | header => exact .inr (.inl ⟨rfl, by simpa [hp] using h⟩)
  | decode => exact .inr (.inr ⟨rfl, by simpa [hp] using h⟩)
  | idle | done | error =>
    rw [hp] at h
    cases h
    exact .inl ⟨rfl, rfl⟩

/-- In the block's turn a step is a step of the block. -/
theorem step_of_blockTurn {s u : State} (h : BlockTurn s u) : step s = blockStep u := by
  unfold step takeTurn
  rcases h with ⟨hq, rfl⟩ | ⟨q, hq, rfl⟩ <;> rw [hq]

/-- In the host's turn a step is what the host does. -/
theorem step_of_hostDoes {s u : State} {a : HostAction} (h : HostDoes a s u) : step s = hostStep a u := by
  obtain ⟨q, hq, rfl⟩ := h
  unfold step takeTurn
  rw [hq]

/-- It is the block's turn or the host's. -/
theorem blockTurn_or_hostDoes (s : State) : (∃ u, BlockTurn s u) ∨ ∃ a u, HostDoes a s u := by
  match h : s.hostq with
  | [] => exact .inl ⟨s, .inl ⟨h, rfl⟩⟩
  | .pass :: q => exact .inl ⟨_, .inr ⟨q, h, rfl⟩⟩
  | .act a :: q => exact .inr ⟨a, _, q, h, rfl⟩

/-- The state a turn starts from differs in the turns alone. -/
theorem BlockTurn.eq_withTurns {s u : State} (h : BlockTurn s u) : ∃ q, u = withTurns q s := by
  rcases h with ⟨_, rfl⟩ | ⟨q, _, rfl⟩
  · exact ⟨u.hostq, rfl⟩
  · exact ⟨q, rfl⟩

theorem HostDoes.eq_withTurns {a : HostAction} {s u : State} (h : HostDoes a s u) : ∃ q, u = withTurns q s := by
  obtain ⟨q, _, rfl⟩ := h
  exact ⟨q, rfl⟩

/-- The two turns exclude each other. -/
theorem BlockTurn.not_hostDoes {s u v : State} {a : HostAction} (h : BlockTurn s u) : ¬ HostDoes a s v := by
  rintro ⟨q, hq, _⟩
  rcases h with ⟨h, _⟩ | ⟨_, h, _⟩ <;> rw [h] at hq <;> cases hq

/-- A step that answers a next state is a turn of the block or of the host. -/
theorem step_next {s t : State} (h : step s = .next t) :
    (∃ u, BlockTurn s u ∧ blockStep u = .next t) ∨ ∃ a u, HostDoes a s u ∧ hostStep a u = .next t := by
  rcases blockTurn_or_hostDoes s with ⟨u, hu⟩ | ⟨a, u, hu⟩
  · exact .inl ⟨u, hu, step_of_blockTurn hu ▸ h⟩
  · exact .inr ⟨a, u, hu, step_of_hostDoes hu ▸ h⟩

/-- A turn of the host that answers a next state. -/
theorem hostStep_next {a : HostAction} {s t : State} (h : hostStep a s = .next t) :
    (a = .reset ∧ t = hardReset s) ∨
      (a = .start ∧ s.phase.busy = true ∧ t = s) ∨
      (a = .start ∧ s.phase.busy = false ∧ t = startDecode s) ∨
      (∃ k b, a = .writeIn k b ∧ s.phase.busy = false ∧ t = { s with inMem := Memory.write s.inMem k b }) ∨
      (∃ n, a = .writeLen n ∧ s.phase.busy = false ∧
        t = { s with streamLen := n, lenWritten := true }) ∨
      (∃ r, a = .readReg r ∧ (s.phase.busy = false ∨ hostResultReg r = false) ∧ t = replyWith (hostRegRead s r) s) ∨
      (∃ k, a = .readOut k ∧ s.phase.busy = false ∧ t = replyWith ((hostOutByte s k).map BitVec.toNat) s) := by
  cases a with
  | reset =>
    cases h
    exact .inl ⟨rfl, rfl⟩
  | start =>
    simp only [hostStep, hostStart] at h
    cases hb : s.phase.busy <;> simp only [hb] at h <;> cases h
    · exact .inr (.inr (.inl ⟨rfl, rfl, rfl⟩))
    · exact .inr (.inl ⟨rfl, rfl, rfl⟩)
  | writeIn k b =>
    simp only [hostStep, hostWriteIn] at h
    split at h
    · cases h
    · rename_i hb
      cases h
      exact .inr (.inr (.inr (.inl ⟨k, b, rfl, by simpa using hb, rfl⟩)))
  | writeLen n =>
    simp only [hostStep, hostWriteLen] at h
    split at h
    · cases h
    · rename_i hb
      cases h
      exact .inr (.inr (.inr (.inr (.inl ⟨n, rfl, by simpa using hb, rfl⟩))))
  | readReg r =>
    simp only [hostStep, hostReadReg] at h
    split at h
    · cases h
    · rename_i hb
      cases h
      refine .inr (.inr (.inr (.inr (.inr (.inl ⟨r, rfl, ?_, rfl⟩)))))
      cases hp : s.phase.busy <;> simp_all
  | readOut k =>
    simp only [hostStep, hostReadOut] at h
    split at h
    · cases h
    · rename_i hb
      cases h
      exact .inr (.inr (.inr (.inr (.inr (.inr ⟨k, rfl, by simpa using hb, rfl⟩)))))

/-! ### Runs -/

@[simp] theorem steps_zero (s : State) : steps 0 s = .next s := rfl

/-- A run goes on from the state its first step answers. -/
theorem steps_succ {s t : State} (k : Nat) (h : step s = .next t) : steps (k + 1) s = steps k t := by
  have h' : Sys2Proof.core.step s = .next t := h
  simp only [steps, Host.Core.run, h']
  rfl

end Sys2Proof.Machine
end

