-- ==== Sys2Proof/Tests/Slice0.lean ====
section
/-! SUPPORT. Tests whose expected values come from spec/95_test_vectors.md and the format tables, and a witness for
the hypotheses of each statement. -/

namespace Sys2Proof.Tests

open Sys2Proof.Machine

/-! ### Helpers -/

/-- The next state of an outcome, if there is one. -/
def after : Host.Outcome State Fault Refusal → Option State
  | .next s => some s
  | .fault _ => none
  | .refused _ => none

/-- After START and a good header of 2 × 1 pixels, opcode bytes at 14, their marker not placed. -/
def opened (channels : Byte) (ops : List Byte) : State :=
  { commitHeader 2 1 channels 0 (startDecode State.reset) with
    inMem := Memory.writeAll [] 14 ops
    streamLen := 14 + ops.length + 8 }

/-- The same with another previous pixel. -/
def openedAt (prev : Pixel) (ops : List Byte) : State := { opened 4 ops with prev := prev }

/-- The same with one slot of the cache filled. -/
def openedWith (slot : BitVec 6) (p : Pixel) (ops : List Byte) : State := cacheWrite slot p (opened 4 ops)

/-- The pixel, the cursor and the bytes of OUT after one step. -/
def stepView (s : State) : Option (Pixel × Nat × List Host.Cell) :=
  (after (step s)).map fun t => (t.prev, t.cur, t.outMem)

/-- STATE, ERR, NPIX and CUR, and the header registers, after one step. -/
def headerView (s : State) :
    Option ((Phase × Option FormatError × BitVec 64 × Nat) × (BitVec 32 × BitVec 32 × Byte × Byte)) :=
  (after (step s)).map fun t => ((t.phase, t.err, t.npix, t.cur), (t.width, t.height, t.channels, t.colorspace))

/-- The stream of S1 and P1, in IN of an idle block. -/
def loaded : State :=
  { State.reset with
    inMem := Memory.writeAll [] 0
      ([0x71, 0x6F, 0x69, 0x66, 0, 0, 0, 2, 0, 0, 0, 1, 4, 0] ++ [0xFF, 0, 0, 0, 0x7F, 0xC0, 0]
        ++ [0, 0, 0, 0, 0, 0, 0, 1])
    streamLen := 29
    lenWritten := true }

/-- P1 in HEADER, in DECODE, and in DONE after its two pixels. -/
def inHeader : State := startDecode loaded
def inDecode : State := commitHeader 2 1 4 0 inHeader
def atRun : State := emit ⟨0, 0, 0, 127⟩ (advance 5 0 inDecode)
def allEmitted : State := emit ⟨0, 0, 0, 127⟩ (advance 1 0 atRun)
def inDone : State := finish allEmitted
def inError : State := failedWith .badMagic inHeader

/-! ### Well-formedness: ill-formed terms are refused -/

theorem test_wf_bad_magic : (Instr.hdr 0x716F6967 1 1 4 0).wf = false := by decide
theorem test_wf_bad_channels :
    (Instr.hdr 0x716F6966 1 1 5 0).wf = false ∧ (Instr.hdr 0x716F6966 1 1 2 0).wf = false := by decide
theorem test_wf_run_62 : (Instr.run 62).wf = false ∧ (Instr.run 63).wf = false := by decide
theorem test_wf_good : (Instr.hdr 0x716F6966 0 0 3 255).wf = true ∧ (Instr.run 61).wf = true := by decide

/-! ### Decoding: words written out bit by bit from R71 and R74 to R79 -/

theorem test_decode_hdr :
    decodeHeader [0b01110001#8, 0b01101111#8, 0b01101001#8, 0b01100110#8, 1, 2, 3, 4, 0, 0, 0, 5, 3, 0x7F] =
      .ok (.hdr 0x716F6966 0x01020304 5 3 0x7F, []) := by decide
theorem test_decode_rgb : decodeOpcode [0b11111110#8, 1, 2, 3] = .ok (.rgb 1 2 3, []) := by decide
theorem test_decode_rgba : decodeOpcode [0b11111111#8, 1, 2, 3, 4] = .ok (.rgba 1 2 3 4, []) := by decide
theorem test_decode_run : decodeOpcode [0b11111101#8] = .ok (.run 61, []) := by decide
theorem test_decode_index : decodeOpcode [0b00110101#8] = .ok (.index 53, []) := by decide
theorem test_decode_diff : decodeOpcode [0b01100011#8] = .ok (.diff 2 0 3, []) := by decide
theorem test_decode_luma : decodeOpcode [0b10100010#8, 0b01111001#8] = .ok (.luma 34 7 9, []) := by decide
theorem test_decode_cut :
    decodeOpcode [0xFE, 1, 2] = .error .operandsMissing ∧ decodeOpcode [] = .error .noByte ∧
      decodeHeader [0x71] = .error .headerCut := by decide

/-- The opcode table's words, byte 0 in bits 7..0. -/
theorem test_table_words :
    decodeTableWord 32 0x030201FE = some (.rgb 1 2 3) ∧ decodeTableWord 40 0x04030201FF = some (.rgba 1 2 3 4) ∧
      decodeTableWord 8 0xFE = some (.rgb 0 0 0) ∧ decodeTableWord 8 0xC2 = some (.run 2) ∧
      decodeTableWord 8 0x35 = some (.index 53) ∧ decodeTableWord 8 0x4A = some (.diff 0 2 2) ∧
      decodeTableWord 16 0x79A2 = some (.luma 34 7 9) ∧
      decodeTableWord 112 0x0004010000000200000066696F71 = some (.hdr 0x716F6966 2 1 4 0) := by decide

/-! ### One step each; the ids are those of spec/95_test_vectors.md -/

/-- LT2, CHANNELS = 4. -/
theorem test_rgb_LT2 : stepView (openedAt ⟨10, 20, 30, 200⟩ [0xFE, 1, 2, 3]) =
    some (⟨1, 2, 3, 200⟩, 18, [(0, 1), (1, 2), (2, 3), (3, 200)]) := by decide
/-- LT1, CHANNELS = 3. -/
theorem test_rgb_LT1 : stepView (opened 3 [0xFE, 1, 2, 3]) = some (⟨1, 2, 3, 255⟩, 18, [(0, 1), (1, 2), (2, 3)]) := by
  decide
/-- LT4. -/
theorem test_rgba_LT4 : stepView (opened 4 [0xFF, 0, 0, 0, 0x7F]) =
    some (⟨0, 0, 0, 127⟩, 19, [(0, 0), (1, 0), (2, 0), (3, 127)]) := by decide
/-- LT6: five bytes with 3 channels too. -/
theorem test_rgba_LT6 : stepView (opened 3 [0xFF, 9, 8, 7, 6]) = some (⟨9, 8, 7, 6⟩, 19, [(0, 9), (1, 8), (2, 7)]) := by
  decide
/-- X3. -/
theorem test_index_X3 : stepView (openedWith 58 ⟨1, 2, 3, 200⟩ [0x3A]) =
    some (⟨1, 2, 3, 200⟩, 15, [(0, 1), (1, 2), (2, 3), (3, 200)]) := by decide
/-- X4: the pixel of slot 0 is lost. -/
theorem test_index_X4 : (after (step (openedWith 0 ⟨2, 1, 0, 255⟩ [0x05]))).map (fun t => (t.prev, cacheRead t.cache 0)) =
    some (⟨0, 0, 0, 0⟩, ⟨0, 0, 0, 0⟩) := by decide
/-- RN1, its first step. -/
theorem test_run_RN1 : (after (step (opened 4 [0xC2]))).map (fun t => (t.prev, t.run, t.cur, cacheRead t.cache 53)) =
    some (⟨0, 0, 0, 255⟩, 2, 15, ⟨0, 0, 0, 255⟩) := by decide
/-- P3 step 4: a run continuation fetches nothing. -/
theorem test_run_continues : (after (step { opened 4 [] with run := 1 })).map (fun t => (t.prev, t.run, t.cur, t.pxcnt)) =
    some (⟨0, 0, 0, 255⟩, 0, 14, 1) := by decide
/-- DF11, the source's own example. -/
theorem test_diff_DF11 : (stepView (opened 4 [0x4A])).map (·.1) = some ⟨254, 0, 0, 255⟩ := by decide
/-- DF7. -/
theorem test_diff_DF7 : (stepView (openedAt ⟨0, 128, 255, 7⟩ [0x63])).map (·.1) = some ⟨0, 126, 0, 7⟩ := by decide
/-- LM4. -/
theorem test_luma_LM4 : stepView (openedAt ⟨10, 20, 30, 255⟩ [0xA2, 0x79]) =
    some (⟨11, 22, 33, 255⟩, 16, [(0, 11), (1, 22), (2, 33), (3, 255)]) := by decide
/-- LM6: red and blue wrap, green does not. -/
theorem test_luma_LM6 : (stepView (openedAt ⟨5, 40, 5, 255⟩ [0x80, 0x00])).map (·.1) = some ⟨221, 8, 221, 255⟩ := by
  decide
/-- H1. -/
theorem test_hdr_H1 : headerView inHeader = some ((.decode, none, 2, 14), (2, 1, 4, 0)) := by decide
/-- H5 to H7: the order of the checks, one error each. -/
theorem test_hdr_errors :
    (after (execHdr 0x716F6967 1 1 4 0 inHeader)).map (·.err) = some (some .badMagic) ∧
      (after (execHdr 0x514F4946 1 1 0 0 inHeader)).map (·.err) = some (some .badMagic) ∧
      (after (execHdr 0x716F6966 1 1 5 0 inHeader)).map (·.err) = some (some .invalidChannelCount) := by decide
/-- B1: LUMA cut by LIMIT; B6: nothing left. -/
theorem test_bounds :
    (after (step (opened 3 [0x80]))).map (fun t => (t.phase, t.err, t.outLen)) =
        some (.error, some .unexpectedEndOfStream, 0) ∧
      (after (step (opened 3 []))).map (·.err) = some (some .unexpectedEndOfStream) := by decide
/-- STREAM_LEN can be read in IDLE once written (R40, R47), and not while busy, in DONE (D18) or in ERROR (R156). -/
theorem test_host_reads_STREAM_LEN :
    [State.reset, loaded, inHeader, inDecode, inDone, inError].map (fun s => hostMayRead s .streamLen) =
      [false, true, false, false, false, false] := by decide
/-- R156: STATE, ERR and OUT_LEN, and nothing else, in ERROR. -/
theorem test_host_reads_in_error :
    [HostReg.state, .err, .outLen, .magicValid, .width, .height, .channels, .colorspace].map (hostMayRead inError) =
      [true, true, true, false, false, false, false, false] := by decide
/-- A read with no access is a step with no value (R40); a broken duty is refused (R187): HEIGHT in IDLE and DECODE. -/
theorem test_host_read_without_access :
    (after (step { loaded with hostq := [.act (.readReg .height)], reply := some 7 })).map (·.reply) = some none ∧
      after (step { inDecode with hostq := [.act (.readReg .height)] }) = none := by decide
/-- The hash vectors K2 to K13. -/
theorem test_hash :
    [pixelHash ⟨0, 0, 0, 0⟩, pixelHash ⟨0, 0, 0, 255⟩, pixelHash ⟨255, 255, 255, 255⟩, pixelHash ⟨1, 2, 3, 4⟩,
      pixelHash ⟨64, 0, 0, 0⟩, pixelHash ⟨9, 8, 7, 6⟩, pixelHash ⟨10, 20, 30, 40⟩] = [0, 53, 38, 14, 0, 54, 12] := by decide
/-- S1 ends as the source says. -/
theorem test_result_S1 : result inDone =
    some (.ok 2 1 4 0 [some 0, some 0, some 0, some 127, some 0, some 0, some 0, some 127]) := by decide
/-- The assembler's bytes (R85): LUMA +2, -1, +1 of P2 is A2 79; a run of 63 has none. -/
theorem test_assemble :
    assemble (.luma 2 (-1) 1) = some [0xA2, 0x79] ∧ assemble (.diff 1 1 1) = some [0x7F] ∧
      assemble (.run 62) = some [0xFD] ∧ assemble (.run 63) = none ∧ assemble .endMarker = some [0, 0, 0, 0, 0, 0, 0, 1] := by
  decide
/-- A placed word is the very next thing that runs, after reset. -/
theorem test_fetch_word :
    (after (step (State.reset.withFetchWord 32 0x030201FE))).map (·.prev) = some ⟨1, 2, 3, 255⟩ ∧
      (after (step (State.reset.withFetchWord 8 0xC1))).map (·.run) = some 1 ∧
      (after (step (State.reset.withFetchWord 112 0x0004010000000200000066696F71))).map (·.width) = some 2 := by decide

/-! ### Witnesses: states that obey the laws -/

theorem lawful_inDecode : Lawful inDecode := by constructor <;> decide
theorem lawful_atRun : Lawful atRun := by constructor <;> decide
theorem lawful_inDone : Lawful inDone := by constructor <;> decide
theorem lawful_inHeader : Lawful inHeader := by constructor <;> decide
theorem placed_inDecode : StreamPlaced inDecode := by unfold StreamPlaced; decide

/-- The host's turn to do one thing, in a state. -/
def doing (a : HostAction) (s : State) : State := { s with hostq := [.act a] }

theorem host_turn (a : HostAction) (s : State) (h : s.hostq = []) : HostDoes a (doing a s) s :=
  ⟨[], rfl, by cases s; cases h; rfl⟩
theorem block_turn (s : State) (h : s.hostq = []) : BlockTurn s s := .inl ⟨h, rfl⟩
/-- The block's turn by a listed pass. -/
theorem block_turn_pass : BlockTurn { inDecode with hostq := [.pass] } inDecode := .inr ⟨[], rfl, rfl⟩

/-! ### Witnesses: the hypotheses of each statement, clause by clause, at the ends of the ranges -/

theorem witness_DecodeEncodeRoundTrip :
    (Instr.hdr 0x716F6966 0 0xFFFFFFFF 3 0).wf = true ∧ (Instr.hdr 0x716F6966 0xFFFFFFFF 0 4 255).wf = true ∧
      (Instr.rgb 0 255 0).wf = true ∧ (Instr.rgba 0 255 0 255).wf = true ∧ (Instr.run 0).wf = true ∧
      (Instr.run 61).wf = true ∧ (Instr.index 63).wf = true ∧ (Instr.diff 0 3 0).wf = true ∧
      (Instr.luma 63 15 0).wf = true := by decide
theorem witness_EncodeDecodeInverse :
    decode .opcode [0x80, 0xFF, 7] = .ok (.luma 0 15 15, [7]) ∧
      decode .header [0, 0, 0, 1, 0, 0, 0, 2, 0, 0, 0, 3, 9, 8, 7] = .ok (.hdr 1 2 3 9 8, [7]) := by decide
/-- Every first byte falls under exactly one clause; each clause has bytes at both ends. -/
theorem witness_FirstByteMap :
    ∀ b : Byte, [decide (b.toNat ≤ 0x3F), decide (0x40 ≤ b.toNat ∧ b.toNat ≤ 0x7F),
      decide (0x80 ≤ b.toNat ∧ b.toNat ≤ 0xBF), decide (0xC0 ≤ b.toNat ∧ b.toNat ≤ 0xFD), decide (b.toNat = 0xFE),
      decide (b.toNat = 0xFF)].count true = 1 := by decide
theorem witness_OpcodeLengthByFirstByte :
    decodeOpcode [0xFE, 1, 2, 3, 9] = .ok (.rgb 1 2 3, [9]) ∧
      decodeOpcode [0xFF, 1, 2, 3, 4] = .ok (.rgba 1 2 3 4, []) ∧ decodeOpcode [0xBF, 0] = .ok (.luma 63 0 0, []) ∧
      decodeOpcode [0xC0] = .ok (.run 0, []) := by decide
theorem witness_FourByteReadIsBigEndian :
    memRead4 inHeader 0 = some 0x716F6966 ∧ memRead4 inHeader 25 = some 1 ∧ memRead4 inHeader 26 = none := by decide
theorem witness_AssembledStatementsDecode :
    assemble (.rgb 255 0 255) = some [0xFE, 255, 0, 255] ∧ assemble (.rgba 0 0 0 255) = some [0xFF, 0, 0, 0, 255] ∧
      assemble (.index 63) = some [0x3F] ∧ assemble (.diff (-2) 1 (-2)) = some [0x4C] ∧
      assemble (.luma (-32) (-8) 7) = some [0x80, 0x0F] ∧ assemble (.luma 31 7 (-8)) = some [0xBF, 0xF0] ∧
      assemble (.run 1) = some [0xC0] ∧
      assemble (.qoif 2 4294967295 4 0) = some [0x71, 0x6F, 0x69, 0x66, 0, 0, 0, 2, 255, 255, 255, 255, 4, 0] := by
  decide
theorem witness_HashInAnyWidth : 6 ≤ 6 ∧ pixelHash ⟨255, 255, 255, 255⟩ = 38 := by decide
theorem witness_ResetGivesIdleWithoutError : HostDoes .reset (doing .reset inDecode) inDecode := host_turn _ _ rfl
theorem witness_NoStepOutsideADecode :
    (BlockTurn loaded loaded ∧ loaded.phase = .idle) ∧ (BlockTurn inDone inDone ∧ inDone.phase = .done) ∧
      (BlockTurn inError inError ∧ inError.phase = .error) :=
  ⟨⟨block_turn _ rfl, rfl⟩, ⟨block_turn _ rfl, rfl⟩, ⟨block_turn _ rfl, rfl⟩⟩
theorem witness_StartWritesInitialState :
    (HostDoes .start (doing .start loaded) loaded ∧ loaded.phase = .idle) ∧
      (HostDoes .start (doing .start inDone) inDone ∧ inDone.phase = .done) ∧
      (HostDoes .start (doing .start inError) inError ∧ inError.phase = .error) :=
  ⟨⟨host_turn _ _ rfl, rfl⟩, ⟨host_turn _ _ rfl, rfl⟩, ⟨host_turn _ _ rfl, rfl⟩⟩
theorem witness_StartAndResetKeepTheRest :
    HostDoes .reset (doing .reset inDone) inDone ∧ HostDoes .start (doing .start inDone) inDone ∧
      inDone.phase = .done ∧ inDone.outMem ≠ [] := ⟨host_turn _ _ rfl, host_turn _ _ rfl, by decide⟩
theorem witness_StartIgnoredWhileBusy :
    (HostDoes .start (doing .start inHeader) inHeader ∧ inHeader.phase = .header) ∧
      (HostDoes .start (doing .start inDecode) inDecode ∧ inDecode.phase = .decode) :=
  ⟨⟨host_turn _ _ rfl, rfl⟩, ⟨host_turn _ _ rfl, rfl⟩⟩
theorem witness_PhaseMachine : ∃ t, step inHeader = .next t ∧ t.phase = .decode := ⟨inDecode, rfl, rfl⟩
theorem witness_ShortStreamIsTruncated :
    BlockTurn { inHeader with streamLen := 21 } { inHeader with streamLen := 21 } ∧
      ({ inHeader with streamLen := 21 } : State).phase = .header :=
  ⟨block_turn _ rfl, rfl⟩
/-- The header of P1; its other clauses at magic 0x716F6967, channels 2 and 5, and OUT_CAP at 8 and 7 bytes. -/
theorem witness_HeaderStepOnTheStream :
    BlockTurn inHeader inHeader ∧ inHeader.phase = .header ∧ 22 ≤ inHeader.streamLen ∧
      memRead4 inHeader 0 = some 0x716F6966 ∧ memRead4 inHeader 4 = some 2 ∧ memRead4 inHeader 8 = some 1 ∧
      memRead1 inHeader 12 = some 4 ∧ memRead1 inHeader 13 = some 0 ∧
      exceedsCapacity 2 1 4 (some 8) = false ∧ exceedsCapacity 2 1 4 (some 7) = true :=
  ⟨block_turn _ rfl, by decide⟩
theorem witness_HeaderStepOnOtherStreams :
    memRead4 { inHeader with inMem := Memory.write inHeader.inMem 3 0x67 } 0 = some 0x716F6967 ∧
      memRead1 { inHeader with inMem := Memory.write inHeader.inMem 12 2 } 12 = some 2 ∧
      memRead1 { inHeader with inMem := Memory.write inHeader.inMem 12 5 } 12 = some 5 := by decide
theorem witness_HeaderCommits :
    22 ≤ ({ inHeader with streamLen := 22, outCap := some 8 } : State).streamLen ∧
      ∀ cap, ({ inHeader with streamLen := 22, outCap := some 8 } : State).outCap = some cap →
        (2 : BitVec 32).toNat * (1 : BitVec 32).toNat * (4 : Byte).toNat ≤ cap :=
  ⟨by decide, by rintro cap h; cases h; decide⟩
theorem witness_HeaderErrorOrder :
    ({ inHeader with streamLen := 21 } : State).streamLen < 22 ∧
      22 ≤ ({ inHeader with streamLen := 22 } : State).streamLen ∧ (0x716F6967 : BitVec 32) ≠ 0x716F6966 ∧
      (5 : Byte) ≠ 3 ∧ (5 : Byte) ≠ 4 := by decide
theorem witness_CapacityIsRefusedExactly :
    ∃ cap, ({ inHeader with outCap := some 7 } : State).outCap = some cap ∧
      cap < (2 : BitVec 32).toNat * (1 : BitVec 32).toNat * (4 : Byte).toNat := ⟨7, rfl, by decide⟩
theorem witness_ZeroSizedImageIsDone :
    inHeader.hostq = [] ∧ 22 ≤ inHeader.streamLen ∧ inHeader.outCap = none ∧ inHeader.pxcnt = 0 ∧
      inHeader.outLen = 0 := by decide
theorem witness_RgbEmitsItsPixel :
    (opened 4 [0xFE, 1, 2, 3]).cur + 4 ≤ (opened 4 [0xFE, 1, 2, 3]).limit ∧
      (opened 4 [0xFE, 1, 2]).limit < (opened 4 [0xFE, 1, 2]).cur + 4 := by decide
theorem witness_RgbaEmitsItsPixel :
    (opened 3 [0xFF, 1, 2, 3, 4]).cur + 5 ≤ (opened 3 [0xFF, 1, 2, 3, 4]).limit ∧
      (opened 3 [0xFF, 1, 2, 3]).limit < (opened 3 [0xFF, 1, 2, 3]).cur + 5 := by decide
theorem witness_IndexEmitsTheSlot : (opened 4 [0x35]).cur < (opened 4 [0x35]).limit := by decide
theorem witness_RunEmitsItsFirstPixel : (opened 4 [0xFD]).cur < (opened 4 [0xFD]).limit := by decide
theorem witness_DiffEmitsTheSums : (opened 4 [0x4A]).cur < (opened 4 [0x4A]).limit := by decide
theorem witness_LumaEmitsTheSums :
    (opened 4 [0xBF, 0xFF]).cur + 2 ≤ (opened 4 [0xBF, 0xFF]).limit ∧
      (opened 4 [0xBF]).limit < (opened 4 [0xBF]).cur + 2 := by decide
theorem witness_IndexOfAnEmptySlot :
    (openedWith 0 ⟨2, 1, 0, 255⟩ [0x05]).cur < (openedWith 0 ⟨2, 1, 0, 255⟩ [0x05]).limit ∧
      cacheRead (openedWith 0 ⟨2, 1, 0, 255⟩ [0x05]).cache 5 = ⟨0, 0, 0, 0⟩ := by decide
theorem witness_IndexSeesThePixelBefore :
    (Instr.rgb 1 2 3).position = .opcode ∧
      (opened 4 [0xFE, 1, 2, 3, 0x17]).cur + (Instr.rgb 1 2 3).size < (opened 4 [0xFE, 1, 2, 3, 0x17]).limit ∧
      ∃ t, exec (.rgb 1 2 3) (opened 4 [0xFE, 1, 2, 3, 0x17]) = .next t := ⟨rfl, by decide, _, rfl⟩
theorem witness_StepRunsTheDecodedInstruction :
    BlockTurn inDecode inDecode ∧ inDecode.phase = .decode ∧ inDecode.pxcnt ≠ inDecode.npix ∧ inDecode.run = 0 ∧
      (Instr.rgba 0 0 0 127).size = 5 ∧
      fetchBytes inDecode inDecode.cur 5 = .ok [0xFF, 0, 0, 0, 0x7F] ∧
      decode .opcode [0xFF, 0, 0, 0, 0x7F] = .ok (.rgba 0 0 0 127, []) ∧ inDecode.cur + 5 ≤ inDecode.limit ∧
      inHeader.phase = .header ∧ 22 ≤ inHeader.streamLen ∧
      fetchBytes inHeader 0 14 = .ok [0x71, 0x6F, 0x69, 0x66, 0, 0, 0, 2, 0, 0, 0, 1, 4, 0] ∧
      decode .header [0x71, 0x6F, 0x69, 0x66, 0, 0, 0, 2, 0, 0, 0, 1, 4, 0] = .ok (.hdr 0x716F6966 2 1 4 0, []) :=
  ⟨block_turn _ rfl, by decide⟩
theorem witness_CompletionEndsTheDecode :
    BlockTurn allEmitted allEmitted ∧ allEmitted.phase = .decode ∧ allEmitted.pxcnt = allEmitted.npix :=
  ⟨block_turn _ rfl, by decide⟩
theorem witness_RunContinuationEmitsPrev :
    BlockTurn { atRun with run := 61 } { atRun with run := 61 } ∧ atRun.phase = .decode ∧ atRun.pxcnt ≠ atRun.npix ∧
      ({ atRun with run := 61 } : State).run ≠ 0 :=
  ⟨block_turn _ rfl, by decide⟩
theorem witness_FetchBoundRaises :
    BlockTurn (opened 3 []) (opened 3 []) ∧ (opened 3 []).phase = .decode ∧ (opened 3 []).pxcnt ≠ (opened 3 []).npix ∧
      (opened 3 []).run = 0 ∧ (opened 3 []).limit ≤ (opened 3 []).cur :=
  ⟨block_turn _ rfl, by decide⟩
theorem witness_OperandBoundRaises :
    BlockTurn (opened 3 [0x80]) (opened 3 [0x80]) ∧ (opened 3 [0x80]).phase = .decode ∧
      (opened 3 [0x80]).pxcnt ≠ (opened 3 [0x80]).npix ∧ (opened 3 [0x80]).run = 0 ∧
      (opened 3 [0x80]).cur < (opened 3 [0x80]).limit ∧
      memRead1 (opened 3 [0x80]) (opened 3 [0x80]).cur = some 0x80 ∧
      (opened 3 [0x80]).limit < (opened 3 [0x80]).cur + oplen 0x80 :=
  ⟨block_turn _ rfl, by decide⟩
theorem witness_UnexpectedEndExactly :
    (BlockTurn (opened 3 [0x80]) (opened 3 [0x80]) ∧ (opened 3 [0x80]).phase = .decode ∧
        (opened 3 [0x80]).pxcnt.toNat ≤ (opened 3 [0x80]).npix.toNat) ∧
      (BlockTurn inHeader inHeader ∧ inHeader.phase = .header) :=
  ⟨⟨block_turn _ rfl, by decide⟩, block_turn _ rfl, rfl⟩
theorem witness_WholeRunInOneGo :
    Lawful atRun ∧ atRun.hostq = [] ∧ atRun.phase = .decode ∧ atRun.pxcnt ≠ atRun.npix ∧ atRun.run = 0 ∧
      atRun.cur < atRun.limit ∧ memRead1 atRun atRun.cur = some 0xC0 ∧ 0xC0 ≤ (0xC0 : Byte).toNat ∧
      (0xC0 : Byte).toNat ≤ 0xFD ∧ 1 = min ((0xC0 : Byte).toNat - 0xC0 + 1) (atRun.npix.toNat - atRun.pxcnt.toNat) :=
  ⟨lawful_atRun, by decide⟩
/-- A run of 62 cut to the two pixels owed, and one of 2 that is just long enough. -/
theorem witness_WholeRunInOneGoCut :
    Lawful (opened 4 [0xFD]) ∧ (opened 4 [0xFD]).hostq = [] ∧ (opened 4 [0xFD]).phase = .decode ∧
      (opened 4 [0xFD]).pxcnt ≠ (opened 4 [0xFD]).npix ∧ (opened 4 [0xFD]).run = 0 ∧
      (opened 4 [0xFD]).cur < (opened 4 [0xFD]).limit ∧
      memRead1 (opened 4 [0xFD]) (opened 4 [0xFD]).cur = some 0xFD ∧ 0xC0 ≤ (0xFD : Byte).toNat ∧
      (0xFD : Byte).toNat ≤ 0xFD ∧
      2 = min ((0xFD : Byte).toNat - 0xC0 + 1) ((opened 4 [0xFD]).npix.toNat - (opened 4 [0xFD]).pxcnt.toNat) ∧
      2 < (0xFD : Byte).toNat - 0xC0 + 1 ∧
      memRead1 (opened 4 [0xC1]) (opened 4 [0xC1]).cur = some 0xC1 ∧ 2 = (0xC1 : Byte).toNat - 0xC0 + 1 :=
  ⟨by constructor <;> decide, by decide⟩
theorem witness_DecodePhaseEnds :
    Lawful inDecode ∧ inDecode.hostq = [] ∧ inDecode.phase = .decode ∧ StreamPlaced inDecode :=
  ⟨lawful_inDecode, rfl, rfl, placed_inDecode⟩
theorem witness_WholeDecodeEnds :
    (Lawful (doing .start loaded) ∧ (doing .start loaded).phase = .idle ∧
        (doing .start loaded).hostq = [.act .start] ∧ StreamPlaced (doing .start loaded) ∧
        (doing .start loaded).outCap = none) ∧
      (Lawful (doing .start inDone) ∧ (doing .start inDone).phase = .done ∧
        (doing .start inDone).hostq = [.act .start] ∧ StreamPlaced (doing .start inDone) ∧
        (doing .start inDone).outCap = none) :=
  ⟨⟨by constructor <;> decide, rfl, rfl, by unfold StreamPlaced; decide, rfl⟩,
    ⟨by constructor <;> decide, rfl, rfl, by unfold StreamPlaced; decide, rfl⟩⟩
theorem witness_EveryStepKeepsTheLaws : Lawful inHeader ∧ ∃ t, step inHeader = .next t := ⟨lawful_inHeader, _, rfl⟩
theorem witness_CursorMoves :
    (∃ t, step (doing .start inDone) = .next t ∧ t.cur ≠ inDone.cur) ∧
      (∃ t, step inHeader = .next t ∧ t.phase = .decode) ∧
      (∃ t, step inDecode = .next t ∧ t.phase = .decode ∧ inDecode.run = 0 ∧ t.cur ≠ inDecode.cur) ∧
      ∀ u, ¬ HostDoes .reset (doing .start inDone) u :=
  ⟨⟨_, rfl, by decide⟩, ⟨_, rfl, rfl⟩, ⟨_, rfl, rfl, rfl, by decide⟩, by rintro u ⟨q, h, _⟩; cases h⟩
theorem witness_HeaderIsImmutable :
    (∃ t, step inDecode = .next t) ∧ inDecode.phase ≠ .header ∧ inDecode.phase = .decode ∧
      ∀ u, ¬ HostDoes .reset inDecode u :=
  ⟨⟨_, rfl⟩, by decide, rfl, by rintro u ⟨q, h, _⟩; cases h⟩
theorem witness_HeaderIsImmutableInDone :
    (∃ t, step inDone = .next t) ∧ inDone.phase ≠ .header ∧ ∀ a u, ¬ HostDoes a inDone u :=
  ⟨⟨_, rfl⟩, by decide, by rintro a u ⟨q, h, _⟩; cases h⟩
theorem witness_ErrorsArePrecise :
    ∃ t, step (opened 3 []) = .next t ∧ (opened 3 []).phase ≠ .error ∧ t.phase = .error := ⟨_, rfl, by decide, rfl⟩
theorem witness_ErrorsByPhase :
    (∃ t, step { inHeader with streamLen := 21 } = .next t ∧ t.phase = .error) ∧
      ∃ t, step (opened 3 [0x80]) = .next t ∧ t.phase = .error := ⟨⟨_, rfl, rfl⟩, ⟨_, rfl, rfl⟩⟩
theorem witness_ResultsStayUntilStart :
    (∃ t, step inDone = .next t) ∧ inDone.ended ∧ inError.ended := ⟨⟨_, rfl⟩, .inl rfl, .inr rfl⟩
theorem witness_OutputIsAppendOnly :
    (Lawful inDecode ∧ inDecode.phase = .decode ∧ ∃ t, step inDecode = .next t ∧ t.phase = .decode) ∧
      (Lawful allEmitted ∧ ∃ t, step allEmitted = .next t ∧ t.phase = .done ∧ t.outLen = 8) ∧
      (Lawful { inHeader with streamLen := 21 } ∧
        ∃ t, step { inHeader with streamLen := 21 } = .next t ∧ t.phase = .error) ∧
      (Lawful (doing .start inDone) ∧ inDone.outLen ≠ 0 ∧ ∃ t, step (doing .start inDone) = .next t) ∧
      ∀ u, ¬ HostDoes .reset inDecode u :=
  ⟨⟨lawful_inDecode, rfl, _, rfl, rfl⟩, ⟨by constructor <;> decide, _, rfl, rfl, by decide⟩,
    ⟨by constructor <;> decide, _, rfl, rfl⟩, ⟨by constructor <;> decide, by decide, _, rfl⟩,
    by rintro u ⟨q, h, _⟩; cases h⟩
theorem witness_BlockNeverWritesTheStream : BlockTurn inDecode inDecode ∧ ∃ t, step inDecode = .next t :=
  ⟨block_turn _ rfl, _, rfl⟩
theorem witness_CacheWrittenByEmissionsOnly :
    (∃ t, step inDecode = .next t) ∧ ∀ u, ¬ HostDoes .reset inDecode u ∧ ¬ HostDoes .start inDecode u :=
  ⟨⟨_, rfl⟩, fun u => ⟨(by rintro ⟨q, h, _⟩; cases h), by rintro ⟨q, h, _⟩; cases h⟩⟩
/-- The marker is gone, and the rest of IN reads as before. -/
theorem witness_MarkerIsNeverRead :
    Lawful inDecode ∧ BlockTurn inDecode inDecode ∧ 22 ≤ inDecode.streamLen ∧
      (∀ a, a < inDecode.limit → Memory.read (inDecode.inMem.take 21) a = Memory.read inDecode.inMem a) ∧
      inDecode.inMem.take 21 ≠ inDecode.inMem :=
  ⟨lawful_inDecode, block_turn _ rfl, by decide⟩
theorem witness_PlacedStreamNeverStops :
    Lawful inDecode ∧ BlockTurn inDecode inDecode ∧ StreamPlaced inDecode ∧ inDecode.outCap = none :=
  ⟨lawful_inDecode, block_turn _ rfl, placed_inDecode, rfl⟩
theorem witness_DoneHoldsTheWholeImage : Lawful inDone ∧ inDone.phase = .done := ⟨lawful_inDone, rfl⟩
/-- A fresh block and one that has just decoded an image, on the same stream. -/
theorem witness_DecodesAreIndependent :
    loaded.hostq = [] ∧ inDone.hostq = [] ∧ loaded.streamLen = inDone.streamLen ∧ loaded.inMem = inDone.inMem ∧
      loaded.outCap = inDone.outCap ∧ loaded ≠ inDone := by decide
theorem witness_HostAccessByPhase :
    (Lawful (doing (.readReg .outLen) inDone) ∧ HostDoes (.readReg .outLen) (doing (.readReg .outLen) inDone) inDone) ∧
      (Lawful (doing (.readOut 7) inDone) ∧ HostDoes (.readOut 7) (doing (.readOut 7) inDone) inDone ∧
        7 < inDone.outLen.toNat ∧ ¬ 8 < inDone.outLen.toNat) ∧
      (Lawful (doing (.writeIn 0 0) inDecode) ∧ HostDoes (.writeIn 0 0) (doing (.writeIn 0 0) inDecode) inDecode) ∧
      (Lawful (doing (.writeLen 0) inDone) ∧ HostDoes (.writeLen 0) (doing (.writeLen 0) inDone) inDone) :=
  ⟨⟨by constructor <;> decide, host_turn _ _ rfl⟩, ⟨by constructor <;> decide, host_turn _ _ rfl, by decide⟩,
    ⟨by constructor <;> decide, host_turn _ _ rfl⟩, ⟨by constructor <;> decide, host_turn _ _ rfl⟩⟩
theorem witness_HostAccessDenied :
    (Lawful (doing (.readReg .width) loaded) ∧ HostDoes (.readReg .width) (doing (.readReg .width) loaded) loaded ∧
        loaded.phase.busy = false) ∧
      (Lawful (doing (.readReg .streamLen) inDecode) ∧
        HostDoes (.readReg .streamLen) (doing (.readReg .streamLen) inDecode) inDecode ∧
        inDecode.phase.busy = true) ∧
      (Lawful (doing (.readOut 0) inDecode) ∧ HostDoes (.readOut 0) (doing (.readOut 0) inDecode) inDecode) :=
  ⟨⟨by constructor <;> decide, host_turn _ _ rfl, rfl⟩, ⟨by constructor <;> decide, host_turn _ _ rfl, rfl⟩,
    ⟨by constructor <;> decide, host_turn _ _ rfl⟩⟩
theorem witness_ErrorShowsTheKindAlone :
    (Lawful (doing (.readReg .state) inError) ∧ HostDoes (.readReg .state) (doing (.readReg .state) inError) inError) ∧
      (Lawful (doing (.readReg .err) inError) ∧ HostDoes (.readReg .err) (doing (.readReg .err) inError) inError) ∧
      (Lawful (doing (.readReg .outLen) inError) ∧
        HostDoes (.readReg .outLen) (doing (.readReg .outLen) inError) inError) ∧
      (Lawful (doing (.readReg .streamLen) inError) ∧
        HostDoes (.readReg .streamLen) (doing (.readReg .streamLen) inError) inError) ∧
      (Lawful (doing (.readOut 0) inError) ∧ HostDoes (.readOut 0) (doing (.readOut 0) inError) inError) ∧
      inError.phase = .error ∧ inError.err = some .badMagic :=
  ⟨⟨by constructor <;> decide, host_turn _ _ rfl⟩, ⟨by constructor <;> decide, host_turn _ _ rfl⟩,
    ⟨by constructor <;> decide, host_turn _ _ rfl⟩, ⟨by constructor <;> decide, host_turn _ _ rfl⟩,
    ⟨by constructor <;> decide, host_turn _ _ rfl⟩, rfl, rfl⟩
theorem witness_StreamLengthHasAValueOnceWritten :
    (HostDoes .reset (doing .reset inDone) inDone ∧ ∃ t, step (doing .reset inDone) = .next t) ∧
      (HostDoes (.writeLen 21) (doing (.writeLen 21) State.reset) State.reset ∧
        ∃ t, step (doing (.writeLen 21) State.reset) = .next t) ∧
      (∃ t, step inDecode = .next t) ∧ ∀ a u, ¬ HostDoes a inDecode u :=
  ⟨⟨host_turn _ _ rfl, _, rfl⟩, ⟨host_turn _ _ rfl, _, rfl⟩, ⟨_, rfl⟩, by rintro a u ⟨q, h, _⟩; cases h⟩
/-- Every phase and every error kind can be read. -/
theorem witness_HostReadsTheValues :
    (∀ r s, s.hostq = [] → HostDoes (.readReg r) (doing (.readReg r) s) s) ∧
      [loaded.phase, inHeader.phase, inDecode.phase, inDone.phase, inError.phase] =
        [.idle, .header, .decode, .done, .error] ∧
      [loaded.err, (failedWith .truncated inHeader).err, inError.err, (failedWith .invalidChannelCount inHeader).err,
          (failedWith .unexpectedEndOfStream inDecode).err] =
        [none, some .truncated, some .badMagic, some .invalidChannelCount, some .unexpectedEndOfStream] ∧
      inDone.magicValid = true ∧ loaded.magicValid = false :=
  ⟨fun _ _ h => host_turn _ _ h, by decide⟩
theorem witness_HostCannotSeeTheRunningState :
    HostDoes (.readReg .outLen) (doing (.readReg .outLen) inDone) inDone ∧
      HostDoes (.readOut 0) (doing (.readOut 0) inDone) inDone ∧
      HostDoes (.writeLen 0) (doing (.writeLen 0) inDecode) inDecode :=
  ⟨host_turn _ _ rfl, host_turn _ _ rfl, host_turn _ _ rfl⟩
theorem witness_MemoriesThatReadAlikeAreEqual :
    Memory.wf inDone.outMem ∧ Memory.wf [] := by decide

end Sys2Proof.Tests
end

/-! PROOFS. The state: what one step does to it, the laws it keeps, and what the host reads of it. -/

namespace Sys2Proof.Machine

/-! ### The moves of the block -/

/-- Everything a step of the block can do, one constructor for each way it answers a next state. -/
inductive BlockMove (s : State) : State → Prop where
  /-- No step is enabled (R121). -/
  | stay (hp : s.phase.busy = false) : BlockMove s s
  /-- A check of the HEADER step fails (R98). -/
  | headerError (e : FormatError) (hp : s.phase = .header) (he : e ≠ .unexpectedEndOfStream) : BlockMove s (raise e s)
  /-- The header is committed (R99). -/
  | commit (w h : BitVec 32) (c sp : Byte) (hp : s.phase = .header) (hl : 22 ≤ s.streamLen) (hc : c = 3 ∨ c = 4)
      (hx : exceedsCapacity w h c s.outCap = false) : BlockMove s (commitHeader w h c sp s)
  /-- The decode is complete (R114). -/
  | finish (hp : s.phase = .decode) (hd : s.pxcnt = s.npix) : BlockMove s (finish s)
  /-- The fetch bound or the operand bound fails (R112, R113). -/
  | decodeError (hp : s.phase = .decode) (hd : s.pxcnt ≠ s.npix) (hr : s.run = 0) :
      BlockMove s (raise .unexpectedEndOfStream s)
  /-- A run in progress emits once more (R111). -/
  | continueRun (hp : s.phase = .decode) (hd : s.pxcnt ≠ s.npix) (hr : s.run ≠ 0) :
      BlockMove s (emit s.prev (advance 0 (s.run - 1) s))
  /-- An opcode is fetched and emits its pixel (R110). -/
  | opcode (b0 : Byte) (p : Pixel) (owed : BitVec 6) (hp : s.phase = .decode) (hd : s.pxcnt ≠ s.npix)
      (hr : s.run = 0) (hb : memRead1 s s.cur = some b0) (hf : s.cur + oplen b0 ≤ s.limit) (ho : owed.toNat ≤ 61) :
      BlockMove s (emit p (advance (oplen b0) owed s))

/-- The run an opcode leaves owed is within R45's bound. -/
theorem owed_le {i : Instr} {run owed : BitVec 6} (hw : i.wf = true) (hr : run = 0) (h : owed = run ∨ i = .run owed) :
    owed.toNat ≤ 61 := by
  rcases h with rfl | rfl
  · simp [hr]
  · simpa [Instr.wf] using hw

theorem fetchAndRun_move {s t : State} (hp : s.phase = .decode) (hd : s.pxcnt ≠ s.npix) (hr : s.run = 0)
    (h : fetchAndRun s = .next t) : BlockMove s t := by
  rcases fetchAndRun_cases h with ⟨_, ho⟩ | ⟨_, _, _, _, ho⟩ | ⟨_, _, _, _, ho⟩ |
    ⟨b0, _, i, hb, hf, _, _, hi, hw, hs, ho⟩
  · cases ho
    exact .decodeError hp hd hr
  · cases ho
  · cases ho
    exact .decodeError hp hd hr
  · obtain ⟨p, owed, he, hrun⟩ := exec_fetched hi (s := s) (hs ▸ hf)
    rw [he, hs] at ho
    cases ho
    exact .opcode b0 p owed hp hd hr hb hf (owed_le hw hr hrun)

theorem decodeStep_move {s t : State} (hp : s.phase = .decode) (h : decodeStep s = .next t) : BlockMove s t := by
  unfold decodeStep at h
  split at h
  next hd =>
    cases h
    exact .finish hp hd
  next hd =>
    split at h
    next hr =>
      cases h
      exact .continueRun hp hd hr
    next hr => exact fetchAndRun_move hp hd (not_not.mp hr) h

theorem headerStep_move {s t : State} (hp : s.phase = .header) (h : headerStep s = .next t) : BlockMove s t := by
  rcases headerStep_next h with ⟨e, he, rfl⟩ | ⟨w, ht, c, sp, hl, hc, hx, rfl⟩
  · exact .headerError e hp he
  · exact .commit w ht c sp hp hl hc hx

/-- A step of the block that answers a next state is one of its moves. -/
theorem blockStep_move {s t : State} (h : blockStep s = .next t) : BlockMove s t := by
  rcases blockStep_next h with ⟨hp, rfl⟩ | ⟨hp, h⟩ | ⟨hp, h⟩
  · exact .stay hp
  · exact headerStep_move hp h
  · exact decodeStep_move hp h

/-! ### What a move leaves unchanged -/

/-- The block never writes STREAM_LEN or the mark that it was written (R32). -/
theorem BlockMove.stream_frame {s t : State} (h : BlockMove s t) :
    t.lenWritten = s.lenWritten ∧ t.streamLen = s.streamLen := by
  cases h <;> exact ⟨rfl, rfl⟩

/-- A move writes a slot only when it emits the pixel that the slot then holds (R41). -/
theorem BlockMove.slot {s t : State} (h : BlockMove s t) (j : BitVec 6) :
    cacheRead t.cache j = cacheRead s.cache j ∨
      (t.pxcnt = s.pxcnt + 1 ∧ j = pixelHash t.prev ∧ cacheRead t.cache j = t.prev) := by
  have emitted (p : Pixel) (n : Nat) (owed : BitVec 6) {t : State} (ht : t = emit p (advance n owed s)) :
      cacheRead t.cache j = cacheRead s.cache j ∨
        (t.pxcnt = s.pxcnt + 1 ∧ j = pixelHash t.prev ∧ cacheRead t.cache j = t.prev) := by
    have he : Emits p s t := ht ▸ emits_emit p s n owed
    by_cases hj : j = pixelHash p
    · exact .inr ⟨he.count, by rw [he.prev, hj], by rw [he.prev, hj, he.slot]⟩
    · exact .inl (he.otherSlots j hj)
  cases h with
  | stay | headerError | commit | finish | decodeError => exact .inl rfl
  | continueRun => exact emitted _ _ _ rfl
  | opcode => exact emitted _ _ _ rfl

/-- START and hardware reset aside, nothing the host does writes the running state (R24). -/
theorem hostStep_running_frame {a : HostAction} {s t : State} (h : hostStep a s = .next t) (hr : a ≠ .reset)
    (hs : a ≠ .start) :
    t.cur = s.cur ∧ t.npix = s.npix ∧ t.pxcnt = s.pxcnt ∧ t.run = s.run ∧ t.prev = s.prev ∧ t.cache = s.cache := by
  rcases hostStep_next h with ⟨ha, _⟩ | ⟨ha, _⟩ | ⟨ha, _⟩ | ⟨_, _, _, _, rfl⟩ | ⟨_, _, _, rfl⟩ | ⟨_, _, _, rfl⟩ |
    ⟨_, _, _, rfl⟩
  · exact absurd ha hr
  · exact absurd ha hs
  · exact absurd ha hs
  all_goals exact ⟨rfl, rfl, rfl, rfl, rfl, rfl⟩

/-- Hardware reset and a write of STREAM_LEN aside, nothing the host does writes STREAM_LEN or its mark. -/
theorem hostStep_streamLen_frame {a : HostAction} {s t : State} (h : hostStep a s = .next t) (hr : a ≠ .reset)
    (hw : ∀ n, a ≠ .writeLen n) : t.lenWritten = s.lenWritten ∧ t.streamLen = s.streamLen := by
  rcases hostStep_next h with ⟨ha, _⟩ | ⟨_, _, rfl⟩ | ⟨_, _, rfl⟩ | ⟨_, _, _, _, rfl⟩ | ⟨n, ha, _, _⟩ |
    ⟨_, _, _, rfl⟩ | ⟨_, _, _, rfl⟩
  · exact absurd ha hr
  · exact ⟨rfl, rfl⟩
  · exact ⟨rfl, rfl⟩
  · exact ⟨rfl, rfl⟩
  · exact absurd ha (hw n)
  · exact ⟨rfl, rfl⟩
  · exact ⟨rfl, rfl⟩

theorem Phase.not_busy_iff (p : Phase) : p.busy = false ↔ p ≠ .header ∧ p ≠ .decode := by cases p <;> decide

/-! ### The laws of the state -/

/-- Outside DECODE and DONE the laws about a decode in progress or complete say nothing. -/
theorem Lawful.of_no_image {s : State} (hp : s.phase ≠ .decode) (hd : s.phase ≠ .done) (hin : Memory.wf s.inMem)
    (hout : Memory.wf s.outMem) (herr : s.err ≠ none ↔ s.phase = .error) (hrun : s.run.toNat ≤ 61)
    (hcache : ∀ i : BitVec 6, cacheRead s.cache i = Config.zeroPixel ∨ pixelHash (cacheRead s.cache i) = i)
    (hfresh : s.phase = .header →
      s.cur = 0 ∧ s.magicValid = false ∧ s.width = 0 ∧ s.height = 0 ∧ s.channels = 0 ∧ s.colorspace = 0 ∧
        s.npix = 0 ∧ s.pxcnt = 0 ∧ s.run = 0 ∧ s.outLen = 0 ∧ s.prev = Config.prevInit ∧ s.cache = Config.cacheInit)
    (hempty : s.phase = .error → s.outLen = 0) : Lawful s where
  inCanonical := hin
  outCanonical := hout
  errExactlyInError := herr
  runBound := hrun
  cacheLaw := hcache
  headerFresh := hfresh
  headerParsed h := (h.elim hp hd).elim
  accounting h := (h.elim hp hd).elim
  cursorBounds h := (h.elim hp hd).elim
  prevCached h := (h.elim hp hd).elim
  doneComplete h := (hd h).elim
  errorEmpty := hempty

section Laws

variable {s : State}

theorem Lawful.err_eq_none (h : Lawful s) (hp : s.phase ≠ .error) : s.err = none := by
  by_contra he
  exact hp (h.errExactlyInError.mp he)

theorem cacheInit_law (i : BitVec 6) :
    cacheRead Config.cacheInit i = Config.zeroPixel ∨ pixelHash (cacheRead Config.cacheInit i) = i :=
  .inl (cacheRead_cacheInit i)

theorem lawful_hardReset (s : State) : Lawful (hardReset s) :=
  .of_no_image nofun nofun .nil .nil (by simp [State.reset]) (by simp [State.reset]) cacheInit_law nofun nofun

theorem Lawful.withTurns (h : Lawful s) (q : List HostTurn) : Lawful (withTurns q s) := { h with }

theorem Lawful.replyWith (h : Lawful s) (v : Option Nat) : Lawful (replyWith v s) := { h with }

theorem Lawful.writeIn (h : Lawful s) (k : Nat) (b : Byte) :
    Lawful { s with inMem := Memory.write s.inMem k b } :=
  { h with inCanonical := Memory.write_wf h.inCanonical k b }

/-- STREAM_LEN is written outside DECODE only, so no bound on CUR is lost (log entry 8). -/
theorem Lawful.writeLen (h : Lawful s) (hp : s.phase.busy = false) (n : Nat) :
    Lawful { s with streamLen := n, lenWritten := true } :=
  { h with
    cursorBounds := fun hd => ⟨(h.cursorBounds hd).1, fun hx => absurd hx ((Phase.not_busy_iff _).mp hp).2⟩ }

theorem Lawful.startDecode (h : Lawful s) : Lawful (startDecode s) :=
  .of_no_image (by simp) (by simp) h.inCanonical h.outCanonical (by simp) (by simp) cacheInit_law (by simp) (by simp)

theorem Lawful.raise (h : Lawful s) (e : FormatError) : Lawful (raise e s) :=
  .of_no_image (by simp) (by simp) h.inCanonical h.outCanonical (by simp) h.runBound h.cacheLaw (by simp) (by simp)

theorem Lawful.finish (h : Lawful s) (hp : s.phase = .decode) (hd : s.pxcnt = s.npix) : Lawful (finish s) where
  inCanonical := h.inCanonical
  outCanonical := h.outCanonical
  errExactlyInError := by simp [h.err_eq_none (by simp [hp])]
  runBound := h.runBound
  cacheLaw := h.cacheLaw
  headerFresh hx := nomatch hx
  headerParsed _ := h.headerParsed (.inl hp)
  accounting _ := h.accounting (.inl hp)
  cursorBounds _ := ⟨(h.cursorBounds (.inl hp)).1, nofun⟩
  prevCached _ := h.prevCached (.inl hp)
  doneComplete _ := hd
  errorEmpty hx := nomatch hx

/-- NPIX is the exact product (R37): two 32-bit numbers multiply within 64 bits. -/
theorem pixelTotal_toNat (w h : BitVec 32) : (pixelTotal w h).toNat = w.toNat * h.toNat := by
  have hlt : w.toNat * h.toNat < 2 ^ 32 * 2 ^ 32 := Nat.mul_lt_mul'' w.isLt h.isLt
  exact (BitVec.toNat_ofNat ..).trans (Nat.mod_eq_of_lt hlt)

/-- A header commit starts from the registers START wrote and gives a DECODE state with no pixel emitted. -/
theorem Lawful.commitHeader (hs : Lawful s) (hp : s.phase = .header) (hl : 22 ≤ s.streamLen) {w h : BitVec 32}
    {c : Byte} (sp : Byte) (hc : c = 3 ∨ c = 4) (hx : exceedsCapacity w h c s.outCap = false) :
    Lawful (commitHeader w h c sp s) := by
  obtain ⟨-, -, -, -, -, -, -, hpx, hrun, hlen, hprev, hcache⟩ := hs.headerFresh hp
  exact {
    inCanonical := hs.inCanonical
    outCanonical := hs.outCanonical
    errExactlyInError := by simp [hs.err_eq_none (by simp [hp])]
    runBound := hs.runBound
    cacheLaw := hs.cacheLaw
    headerFresh := nofun
    headerParsed := fun _ => ⟨rfl, hc, pixelTotal_toNat w h, hx⟩
    accounting := fun _ => by simp [hpx, hlen]
    cursorBounds := fun _ => ⟨Nat.le_refl 14, fun _ => ⟨hl, by
      show 14 ≤ s.streamLen - 8
      omega⟩⟩
    prevCached := fun _ => ⟨fun _ => ⟨hprev, hcache, hrun⟩, fun hn => absurd hpx hn⟩
    doneComplete := nofun
    errorEmpty := nofun }

/-! ### An emission keeps the laws -/

section Emission

variable {p : Pixel} {t : State} (h : Lawful s) (hp : s.phase = .decode) (hd : s.pxcnt ≠ s.npix)
include h hp hd

theorem Lawful.pixel_owed : s.pxcnt.toNat < s.npix.toNat :=
  Nat.lt_of_le_of_ne (h.accounting (.inl hp)).1 fun he => hd (BitVec.eq_of_toNat_eq he)

/-- OUT_LEN does not wrap while a pixel is owed: 66 bits hold 4 bytes for each of 2^64 - 1 pixels (R39). -/
theorem Lawful.room_for_pixel : s.outLen.toNat + s.channels.toNat < 2 ^ 66 := by
  have howed := h.pixel_owed hp hd
  have hn := s.npix.isLt
  obtain ⟨-, hlen, -⟩ := h.accounting (.inl hp)
  obtain ⟨-, hc | hc, -⟩ := h.headerParsed (.inl hp) <;>
  · simp [hc] at hlen ⊢
    omega

/-- Each of PXCNT's emissions counts (R38): PXCNT does not wrap. -/
theorem Emits.count_toNat (he : Emits p s t) : t.pxcnt.toNat = s.pxcnt.toNat + 1 := by
  have howed := h.pixel_owed hp hd
  have hn := s.npix.isLt
  rw [he.count, BitVec.toNat_add]
  simp
  omega

/-- An emission appends CHANNELS bytes (R142). -/
theorem Emits.length_toNat (he : Emits p s t) : t.outLen.toNat = s.outLen.toNat + s.channels.toNat := by
  have hroom := h.room_for_pixel hp hd
  rw [he.length, BitVec.toNat_add]
  obtain ⟨-, hc | hc, -⟩ := h.headerParsed (.inl hp) <;>
  · simp [hc] at hroom ⊢
    omega

/-- Every byte of OUT below OUT_LEN is there after an emission: the new ones are those of the pixel. -/
theorem Emits.read_isSome (he : Emits p s t) {a : Nat} (ha : a < t.outLen.toNat) :
    (Memory.read t.outMem a).isSome = true := by
  have hroom := h.room_for_pixel hp hd
  rw [he.length_toNat h hp hd] at ha
  obtain ⟨-, hc, -⟩ := h.headerParsed (.inl hp)
  have hc3 : 3 ≤ s.channels.toNat := by rcases hc with hc | hc <;> simp [hc]
  have addr (i : Nat) (hi : i < s.channels.toNat) : (s.outLen + BitVec.ofNat 66 i).toNat = s.outLen.toNat + i := by
    simp only [BitVec.toNat_add, BitVec.toNat_ofNat]
    omega
  have h1 : (s.outLen + 1).toNat = s.outLen.toNat + 1 := addr 1 (by omega)
  have h2 : (s.outLen + 2).toNat = s.outLen.toNat + 2 := addr 2 (by omega)
  by_cases k0 : a = s.outLen.toNat
  · rw [k0, he.red, Option.isSome_some]
  by_cases k1 : a = (s.outLen + 1).toNat
  · rw [k1, he.green, Option.isSome_some]
  by_cases k2 : a = (s.outLen + 2).toNat
  · rw [k2, he.blue, Option.isSome_some]
  by_cases k3 : s.channels = 4 ∧ a = (s.outLen + 3).toNat
  · rw [k3.2, he.alpha k3.1, Option.isSome_some]
  · rw [he.otherBytes a k0 k1 k2 fun h4 ha3 => k3 ⟨h4, ha3⟩]
    refine (h.accounting (.inl hp)).2.2 a ?_
    rcases hc with hc | hc
    · simp [hc] at ha
      omega
    · have h3 : (s.outLen + 3).toNat = s.outLen.toNat + 3 := addr 3 (by simp [hc])
      simp [hc] at ha k3
      omega

/-- A step that emits a pixel while one is owed keeps the laws, if it keeps the form of OUT and the bounds of CUR and
RUN. -/
theorem Lawful.of_emits (he : Emits p s t) (hout : Memory.wf t.outMem) (hcur : s.cur ≤ t.cur ∧ t.cur ≤ s.limit)
    (hrun : t.run.toNat ≤ 61) : Lawful t := by
  obtain ⟨hphase, herr, hstream, hin⟩ := he.control
  obtain ⟨hmagic, hwidth, hheight, hch, -, hnpix⟩ := he.header
  obtain ⟨hcap, -, -, -⟩ := he.own
  have hpt : t.phase = .decode := hphase.trans hp
  have hcount := he.count_toNat h hp hd
  have howed := h.pixel_owed hp hd
  obtain ⟨hcur14, hbound⟩ := h.cursorBounds (.inl hp)
  have hlimit : t.limit = s.limit := by rw [State.limit, State.limit, hstream]
  exact {
    inCanonical := hin ▸ h.inCanonical
    outCanonical := hout
    errExactlyInError := by rw [herr, hphase]; exact h.errExactlyInError
    runBound := hrun
    cacheLaw := fun i => by
      by_cases hi : i = pixelHash p
      · exact .inr (by rw [hi, he.slot])
      · rw [he.otherSlots i hi]
        exact h.cacheLaw i
    headerFresh := by simp [hpt]
    headerParsed := fun _ => by
      rw [hmagic, hwidth, hheight, hch, hnpix, hcap]
      exact h.headerParsed (.inl hp)
    accounting := fun _ => by
      refine ⟨by rw [hnpix]; omega, ?_, fun a => he.read_isSome h hp hd⟩
      rw [he.length_toNat h hp hd, hcount, hch, (h.accounting (.inl hp)).2.1, Nat.succ_mul]
    cursorBounds := fun _ => ⟨by omega, fun _ => ⟨hstream ▸ (hbound hp).1, hlimit ▸ hcur.2⟩⟩
    prevCached := fun _ => by
      refine ⟨fun h0 => ?_, fun _ => by rw [he.prev, he.slot]⟩
      simp [h0] at hcount
    doneComplete := by simp [hpt]
    errorEmpty := by simp [hpt] }

theorem Lawful.emit_advance (p : Pixel) {n : Nat} {owed : BitVec 6} (hcur : s.cur + n ≤ s.limit)
    (hrun : owed.toNat ≤ 61) : Lawful (emit p (advance n owed s)) :=
  h.of_emits hp hd (emits_emit p s n owed) (appendPixel_wf (s := cacheWrite (pixelHash p) p (advance n owed s))
    h.outCanonical p) ⟨Nat.le_add_right s.cur n, hcur⟩ hrun

end Emission

/-! ### Every step keeps the laws -/

theorem BlockMove.lawful {t : State} (h : Lawful s) (hm : BlockMove s t) : Lawful t := by
  cases hm with
  | stay => exact h
  | headerError e => exact h.raise e
  | commit w ht c sp hp hl hc hx => exact h.commitHeader hp hl sp hc hx
  | finish hp hd => exact h.finish hp hd
  | decodeError => exact h.raise _
  | continueRun hp hd hr =>
    have hlimit : s.cur ≤ s.limit := ((h.cursorBounds (.inl hp)).2 hp).2
    have hless : (s.run - 1).toNat ≤ 61 := by
      have := h.runBound
      bv_omega
    exact h.emit_advance hp hd _ hlimit hless
  | opcode b0 p owed hp hd _ _ hf ho => exact h.emit_advance hp hd p hf ho

theorem hostStep_lawful {a : HostAction} {t : State} (hs : Lawful s) (h : hostStep a s = .next t) : Lawful t := by
  rcases hostStep_next h with ⟨_, rfl⟩ | ⟨_, _, rfl⟩ | ⟨_, _, rfl⟩ | ⟨k, b, _, _, rfl⟩ | ⟨n, _, hp, rfl⟩ |
    ⟨_, _, _, rfl⟩ | ⟨_, _, _, rfl⟩
  · exact lawful_hardReset s
  · exact hs
  · exact hs.startDecode
  · exact hs.writeIn k b
  · exact hs.writeLen hp n
  · exact hs.replyWith _
  · exact hs.replyWith _

end Laws

/-- Settles O41: each move of the block and each action of the host keeps the laws. -/
theorem everyStepKeepsTheLaws : Obligations.EveryStepKeepsTheLaws := by
  intro s t hs h
  rcases step_next h with ⟨u, hu, hb⟩ | ⟨a, u, hu, ha⟩
  · obtain ⟨q, rfl⟩ := hu.eq_withTurns
    exact (blockStep_move hb).lawful (hs.withTurns q)
  · obtain ⟨q, rfl⟩ := hu.eq_withTurns
    exact hostStep_lawful (hs.withTurns q) ha

/-- Settles O40: the laws hold after every hardware reset, and a reset leaves the reset state as it is. -/
theorem lawsHoldAtReset : Obligations.LawsHoldAtReset := lawful_hardReset State.reset

/-! ### The cursor -/

section Cursor

variable {s t : State}

theorem BlockMove.cur_of_commit (h : BlockMove s t) (hs : s.phase = .header) (ht : t.phase = .decode) : t.cur = 14 := by
  cases h with
  | stay => simp [hs] at ht
  | headerError => simp at ht
  | commit => rfl
  | finish hp | decodeError hp | continueRun hp | opcode _ _ _ hp => simp [hs] at hp

theorem BlockMove.cur_of_fetch (h : BlockMove s t) (hs : s.phase = .decode) (ht : t.phase = .decode) (hr : s.run = 0) :
    ∃ b0, memRead1 s s.cur = some b0 ∧ t.cur = s.cur + oplen b0 := by
  cases h with
  | stay hp => simp [hs, Phase.busy] at hp
  | headerError _ hp | commit _ _ _ _ hp => simp [hs] at hp
  | finish | decodeError => simp at ht
  | continueRun _ _ hrun => exact absurd hr hrun
  | opcode b0 _ _ _ _ _ hb => exact ⟨b0, hb, rfl⟩

/-- A header commit and a fetched opcode are the only moves of CUR (R26). -/
theorem BlockMove.cur_moved (h : BlockMove s t) (hc : t.cur ≠ s.cur) :
    t.phase = .decode ∧
      (s.phase = .header ∨ (s.phase = .decode ∧ s.run = 0 ∧ s.pxcnt ≠ s.npix ∧ s.cur < t.cur)) := by
  cases h with
  | stay | headerError | finish | decodeError | continueRun => exact absurd rfl hc
  | commit _ _ _ _ hp => exact ⟨rfl, .inl hp⟩
  | opcode b0 _ _ hp hd hr => exact ⟨hp, .inr ⟨hp, hr, hd, Nat.lt_add_of_pos_right (oplen_pos b0).1⟩⟩

theorem hostStart_cur (hb : s.phase.busy = false) (h : hostStep .start s = .next t) : t.cur = 0 := by
  simp only [hostStep, hostStart, hb] at h
  cases h
  rfl

/-- Hardware reset aside, the host moves CUR by a START that is taken alone. -/
theorem hostStep_cur_moved {a : HostAction} (h : hostStep a s = .next t) (hr : a ≠ .reset) (hc : t.cur ≠ s.cur) :
    a = .start ∧ s.phase.busy = false := by
  rcases hostStep_next h with ⟨ha, _⟩ | ⟨_, _, rfl⟩ | ⟨ha, hb, _⟩ | ⟨_, _, _, _, rfl⟩ | ⟨_, _, _, rfl⟩ |
    ⟨_, _, _, rfl⟩ | ⟨_, _, _, rfl⟩
  · exact absurd ha hr
  · exact absurd rfl hc
  · exact ⟨ha, hb⟩
  all_goals exact absurd rfl hc

end Cursor

/-- Settles O42: the block moves CUR at a header commit and at a fetch, the host at a START that is taken. -/
theorem cursorMoves : Obligations.CursorMoves := by
  intro s t h hreset
  rcases step_next h with ⟨u, hu, hb⟩ | ⟨a, u, hu, ha⟩
  · have hm := blockStep_move hb
    obtain ⟨q, rfl⟩ := hu.eq_withTurns
    exact ⟨fun ⟨_, hx⟩ => absurd hx hu.not_hostDoes, fun _ => hm.cur_of_commit, fun _ => hm.cur_of_fetch,
      fun hc => .inr ⟨_, hu, hm.cur_moved hc⟩⟩
  · have hnot (v : State) : ¬ BlockTurn s v := fun hv => hv.not_hostDoes hu
    refine ⟨fun ⟨v, hv⟩ hh hd => ?_, fun ⟨v, hv⟩ => absurd hv (hnot v), fun ⟨v, hv⟩ => absurd hv (hnot v),
      fun hc => .inl ?_⟩
    · rw [step_of_hostDoes hv] at h
      obtain ⟨q, rfl⟩ := hv.eq_withTurns
      exact hostStart_cur (s := withTurns q s) ((Phase.not_busy_iff _).mpr ⟨hh, hd⟩) h
    · have har : a ≠ .reset := fun hx => hreset u (hx ▸ hu)
      obtain ⟨q, hq⟩ := hu.eq_withTurns
      obtain ⟨rfl, hb⟩ := hostStep_cur_moved ha har (by rwa [hq])
      rw [hq] at hb
      exact ⟨u, hu, (Phase.not_busy_iff _).mp hb⟩

/-! ### The cache -/

/-- Settles O49: a move of the block emits where it writes a slot, and the host writes none. -/
theorem cacheWrittenByEmissionsOnly : Obligations.CacheWrittenByEmissionsOnly := by
  intro s t j h hnot
  rcases step_next h with ⟨u, hu, hb⟩ | ⟨a, u, hu, ha⟩
  · obtain ⟨q, rfl⟩ := hu.eq_withTurns
    exact (blockStep_move hb).slot j
  · have har : a ≠ .reset := fun hx => (hnot u).1 (hx ▸ hu)
    have has : a ≠ .start := fun hx => (hnot u).2 (hx ▸ hu)
    obtain ⟨-, -, -, -, -, hcache⟩ := hostStep_running_frame ha har has
    obtain ⟨q, rfl⟩ := hu.eq_withTurns
    exact .inl (by rw [hcache, withTurns_cache])

/-! ### STREAM_LEN -/

/-- Settles O60: the block never writes STREAM_LEN or its mark, and of the host's actions only reset and the write do. -/
theorem streamLengthHasAValueOnceWritten : Obligations.StreamLengthHasAValueOnceWritten := by
  refine ⟨rfl, fun s t h => ⟨fun ⟨u, hu⟩ => ?_, fun n ⟨u, hu⟩ => ?_, fun hreset hwrite => ?_⟩⟩
  · rw [step_of_hostDoes hu] at h
    cases h
    rfl
  · rw [step_of_hostDoes hu] at h
    simp only [hostStep, hostWriteLen] at h
    split at h <;> cases h
    exact ⟨rfl, rfl⟩
  · rcases step_next h with ⟨u, hu, hb⟩ | ⟨a, u, hu, ha⟩
    · obtain ⟨q, rfl⟩ := hu.eq_withTurns
      exact (blockStep_move hb).stream_frame
    · have hframe := hostStep_streamLen_frame ha (fun hx => hreset u (hx ▸ hu)) fun n hx => hwrite n u (hx ▸ hu)
      obtain ⟨q, rfl⟩ := hu.eq_withTurns
      exact hframe

/-! ### What the host reads -/

section HostReads

variable {s u : State} {r : HostReg}

/-- The registers the host may read, phase by phase, as R40 and log entry 17 give them. -/
theorem hostMayRead_iff : hostMayRead s r = true ↔
    r = .state ∨ r = .err ∨ (r = .streamLen ∧ s.phase = .idle ∧ s.lenWritten = true) ∨
      (r ≠ .streamLen ∧ s.phase = .done) ∨ (r = .outLen ∧ s.phase = .error) := by
  cases r <;> simp [hostMayRead]

theorem hostResultReg_iff : hostResultReg r = true ↔ r ≠ .state ∧ r ≠ .err ∧ r ≠ .streamLen := by
  cases r <;> decide

/-- No register the host may read breaks a duty: the results can be read in DONE and ERROR only (R187). -/
theorem not_busy_of_mayRead (h : hostMayRead s r = true) : ¬ (s.phase.busy = true ∧ hostResultReg r = true) := by
  rintro ⟨hb, hres⟩
  obtain ⟨hstate, herr, hlen⟩ := hostResultReg_iff.mp hres
  rcases hostMayRead_iff.mp h with hr | hr | ⟨hr, _⟩ | ⟨_, hp⟩ | ⟨_, hp⟩
  · exact hstate hr
  · exact herr hr
  · exact hlen hr
  · simp [hp, Phase.busy] at hb
  · simp [hp, Phase.busy] at hb

/-- A read with access gives the register's value and changes nothing else. -/
theorem step_readReg_of_mayRead (hu : HostDoes (.readReg r) s u) (h : hostMayRead s r = true) :
    step s = .next { u with reply := some (hostRegValue s r) } := by
  rw [step_of_hostDoes hu]
  obtain ⟨q, rfl⟩ := hu.eq_withTurns
  have hm : hostMayRead (withTurns q s) r = true := h
  rw [hostStep, hostReadReg, if_neg (not_busy_of_mayRead hm), hostRegRead, if_pos hm]
  rfl

/-- A read without access is refused where it breaks a duty (R187), and gives no value elsewhere (log entry 10). -/
theorem step_readReg_of_not_mayRead (hu : HostDoes (.readReg r) s u) (h : ¬ hostMayRead s r = true) :
    step s = if s.phase.busy ∧ r ≠ .streamLen then .refused .hostWhileBusy else .next { u with reply := none } := by
  have hres : hostResultReg r = true ↔ r ≠ .streamLen := by
    rw [hostMayRead_iff] at h
    rw [hostResultReg_iff]
    exact ⟨fun hx => hx.2.2, fun hx => ⟨fun hr => h (.inl hr), fun hr => h (.inr (.inl hr)), hx⟩⟩
  rw [step_of_hostDoes hu]
  obtain ⟨q, rfl⟩ := hu.eq_withTurns
  have hm : ¬ hostMayRead (withTurns q s) r = true := h
  rw [hostStep, hostReadReg, hostRegRead, if_neg hm]
  exact if_congr (and_congr_right' hres) rfl rfl

/-- A byte of a complete image reads back its value (R40). -/
theorem step_readOut_done (hs : Lawful s) {k : Nat} (hu : HostDoes (.readOut k) s u) (hp : s.phase = .done)
    (hk : k < s.outLen.toNat) :
    ∃ b, Memory.read s.outMem k = some b ∧ step s = .next { u with reply := some b.toNat } := by
  obtain ⟨b, hb⟩ := Option.isSome_iff_exists.mp ((hs.accounting (.inr hp)).2.2 k hk)
  refine ⟨b, hb, ?_⟩
  rw [step_of_hostDoes hu]
  obtain ⟨q, rfl⟩ := hu.eq_withTurns
  have hbyte : hostOutByte (withTurns q s) k = some b := (if_pos ⟨hp, hk⟩).trans hb
  rw [hostStep, hostReadOut, hbyte, if_neg (by simp [hp, Phase.busy])]
  rfl

theorem step_readOut_elsewhere {k : Nat} (hu : HostDoes (.readOut k) s u)
    (h : ¬ (s.phase = .done ∧ k < s.outLen.toNat)) :
    step s = if s.phase.busy then .refused .hostWhileBusy else .next { u with reply := none } := by
  rw [step_of_hostDoes hu]
  obtain ⟨q, rfl⟩ := hu.eq_withTurns
  have hnone : hostOutByte (withTurns q s) k = none := if_neg h
  rw [hostStep, hostReadOut, hnone]
  rfl

end HostReads

/-- Settles O54: each access by what it does with and without access. -/
theorem hostAccessByPhase : Obligations.HostAccessByPhase := by
  intro s u hs
  refine ⟨fun r hu => ⟨fun h => ?_, fun h => ?_⟩, fun k b hu => ?_, fun n hu => ?_, fun k hu => ⟨?_, ?_⟩⟩
  · exact step_readReg_of_mayRead hu (hostMayRead_iff.mpr h)
  · exact step_readReg_of_not_mayRead hu fun hm => h (hostMayRead_iff.mp hm)
  · rw [step_of_hostDoes hu]
    obtain ⟨q, rfl⟩ := hu.eq_withTurns
    rfl
  · rw [step_of_hostDoes hu]
    obtain ⟨q, rfl⟩ := hu.eq_withTurns
    rfl
  · exact step_readOut_done hs hu
  · exact step_readOut_elsewhere hu

/-- Settles O58: a read with access gives `hostRegValue`, which is the code or the number of the register. -/
theorem hostReadsTheValues : Obligations.HostReadsTheValues := by
  intro s u
  have gives {r : HostReg} (n : Nat) (hm : hostMayRead s r = true) (hv : hostRegValue s r = n)
      (hu : HostDoes (.readReg r) s u) : step s = .next { u with reply := some n } :=
    hv ▸ step_readReg_of_mayRead hu hm
  refine ⟨fun n hn => gives n rfl ?_, fun n hn => gives n rfl ?_,
    fun hp hw => gives _ (by simp [hostMayRead, hp, hw]) rfl, fun hp => ?_, fun hp => gives _ (by simpa [hostMayRead] using hp) rfl⟩
  · rcases hn with ⟨hp, rfl⟩ | ⟨hp, rfl⟩ | ⟨hp, rfl⟩ | ⟨hp, rfl⟩ | ⟨hp, rfl⟩ <;> simp [hostRegValue, hp, Phase.code]
  · rcases hn with ⟨he, rfl⟩ | ⟨he, rfl⟩ | ⟨he, rfl⟩ | ⟨he, rfl⟩ | ⟨he, rfl⟩ <;>
      simp [hostRegValue, he, errCode, FormatError.code]
  · have done {r : HostReg} (hr : r ≠ .streamLen) : hostMayRead s r = true :=
      hostMayRead_iff.mpr (.inr (.inr (.inr (.inl ⟨hr, hp⟩))))
    refine ⟨fun n hn => gives n (done (by decide)) ?_, gives _ (done (by decide)) rfl, gives _ (done (by decide)) rfl,
      gives _ (done (by decide)) rfl, gives _ (done (by decide)) rfl⟩
    rcases hn with ⟨hv, rfl⟩ | ⟨hv, rfl⟩ <;> simp [hostRegValue, hv, flagCode]

/-! ### The running state is hidden from the host -/

/-- A state with another running state: the registers and the cache that the host cannot name. -/
def withRunning (cur : Nat) (npix pxcnt : BitVec 64) (run : BitVec 6) (prev : Pixel) (cache : Vector Pixel 64)
    (s : State) : State :=
  { s with cur := cur, npix := npix, pxcnt := pxcnt, run := run, prev := prev, cache := cache }

theorem onNext_ite (f : State → State) (c : Prop) [Decidable c] (e : Refusal) (t : State) :
    onNext f (if c then .refused e else .next t) = if c then .refused e else .next (f t) :=
  apply_ite ..

/-- No register the host can name is part of the running state. -/
theorem hostRegRead_withRunning (cur : Nat) (npix pxcnt : BitVec 64) (run : BitVec 6) (prev : Pixel)
    (cache : Vector Pixel 64) (s : State) (r : HostReg) :
    hostRegRead (withRunning cur npix pxcnt run prev cache s) r = hostRegRead s r := by
  cases r <;> rfl

/-- START and hardware reset aside, what the host does is the same whatever the running state. -/
theorem hostStep_withRunning {a : HostAction} (hr : a ≠ .reset) (hs : a ≠ .start) (cur : Nat)
    (npix pxcnt : BitVec 64) (run : BitVec 6) (prev : Pixel) (cache : Vector Pixel 64) (s : State) :
    hostStep a (withRunning cur npix pxcnt run prev cache s) =
      onNext (withRunning cur npix pxcnt run prev cache) (hostStep a s) := by
  cases a with
  | reset => exact absurd rfl hr
  | start => exact absurd rfl hs
  | writeIn =>
    simp only [hostStep, hostWriteIn, onNext_ite]
    rfl
  | writeLen =>
    simp only [hostStep, hostWriteLen, onNext_ite]
    rfl
  | readReg =>
    simp only [hostStep, hostReadReg, hostRegRead_withRunning, onNext_ite]
    rfl
  | readOut =>
    simp only [hostStep, hostReadOut, onNext_ite]
    rfl

/-- Settles O55: the host's actions commute with a change of the running state and leave it alone. -/
theorem hostCannotSeeTheRunningState : Obligations.HostCannotSeeTheRunningState := by
  intro s u a cur npix pxcnt run prev cache hu hr hs
  have hstep := step_of_hostDoes hu
  obtain ⟨q, hq, rfl⟩ := hu
  refine ⟨?_, fun t h => hostStep_running_frame (s := withTurns q s) (hstep.symm.trans h) hr hs⟩
  have hu' : HostDoes a (withRunning cur npix pxcnt run prev cache s)
      (withRunning cur npix pxcnt run prev cache (withTurns q s)) := ⟨q, hq, rfl⟩
  exact (step_of_hostDoes hu').trans (hstep ▸ hostStep_withRunning hr hs ..)

end Sys2Proof.Machine

/-! PROOFS. The memories: the canonical form, reads of IN and what they depend on, and what is written to OUT. -/

namespace Sys2Proof.Machine

/-! ### The canonical form is unique -/

/-- An address below every listed one holds no value. -/
theorem Memory.read_eq_none {m : Memory} {a : Nat} (h : ∀ c ∈ m, a < c.1) : Memory.read m a = none := by
  induction m with
  | nil => rfl
  | cons c m ih =>
    obtain ⟨hc, hm⟩ := List.forall_mem_cons.mp h
    exact (if_neg (Nat.ne_of_lt hc)).trans (ih hm)

/-- The first listed address of a canonical memory is the least that holds a value. -/
theorem Memory.head_le_of_read {k a : Nat} {v w : Byte} {m : Memory} (h : Memory.wf ((k, v) :: m))
    (hr : Memory.read ((k, v) :: m) a = some w) : k ≤ a := by
  by_contra hlt
  have hbelow : ∀ c ∈ (k, v) :: m, a < c.1 :=
    List.forall_mem_cons.mpr ⟨by simpa using hlt, fun c hc =>
      Nat.lt_trans (by simpa using hlt) ((List.pairwise_cons.mp h).1 c hc)⟩
  simp [Memory.read_eq_none hbelow] at hr

@[simp] theorem Memory.read_head (k : Nat) (v : Byte) (m : Memory) : Memory.read ((k, v) :: m) k = some v := if_pos rfl

theorem Memory.read_tail {k a : Nat} (v : Byte) (m : Memory) (h : a ≠ k) :
    Memory.read ((k, v) :: m) a = Memory.read m a := if_neg h

/-- Settles O56: memories that read alike have the same first cell, and so on along the lists. -/
theorem memoriesThatReadAlikeAreEqual : Obligations.MemoriesThatReadAlikeAreEqual := by
  intro m
  induction m with
  | nil =>
    rintro (_ | ⟨⟨k, v⟩, n⟩) _ _ h
    · rfl
    · simpa using h k
  | cons c m ih =>
    obtain ⟨k, v⟩ := c
    rintro (_ | ⟨⟨l, w⟩, n⟩) hm hn h
    · simpa using h k
    · have hkl : k = l := Nat.le_antisymm
        (Memory.head_le_of_read hm ((h l).trans (Memory.read_head l w n)))
        (Memory.head_le_of_read hn ((h k).symm.trans (Memory.read_head k v m)))
      subst hkl
      have hvw : v = w := by simpa using h k
      obtain ⟨hkm, hm⟩ := List.pairwise_cons.mp hm
      obtain ⟨hkn, hn⟩ := List.pairwise_cons.mp hn
      have htail : m = n := ih n hm hn fun a => by
        by_cases ha : a = k
        · rw [ha, Memory.read_eq_none hkm, Memory.read_eq_none hkn]
        · rw [← Memory.read_tail v m ha, h a, Memory.read_tail w n ha]
      rw [hvw, htail]

/-! ### Four bytes at once -/

/-- Four bytes are read exactly where each of them is, and in order (R52, R53). -/
theorem memRead4_eq_some {s : State} {a : Nat} {v : BitVec 32} : memRead4 s a = some v ↔
    ∃ b0 b1 b2 b3, memRead1 s a = some b0 ∧ memRead1 s (a + 1) = some b1 ∧ memRead1 s (a + 2) = some b2 ∧
      memRead1 s (a + 3) = some b3 ∧ v = be32 b0 b1 b2 b3 := by
  unfold memRead4
  split
  next b0 b1 b2 b3 h0 h1 h2 h3 => simp [h0, h1, h2, h3, eq_comm]
  next hnone => exact ⟨nofun, fun ⟨b0, b1, b2, b3, h0, h1, h2, h3, _⟩ => (hnone b0 b1 b2 b3 h0 h1 h2 h3).elim⟩

/-- Settles O6: the four bytes put together have the big-endian value. -/
theorem fourByteReadIsBigEndian : Obligations.FourByteReadIsBigEndian := by
  intro s a v
  simp only [memRead4_eq_some, ← be32_toNat, BitVec.toNat_inj]

/-! ### The capacity of OUT -/

theorem exceedsCapacity_iff {w h : BitVec 32} {c : Byte} {o : Option Nat} : exceedsCapacity w h c o = true ↔
    ∃ cap, o = some cap ∧ cap < w.toNat * h.toNat * c.toNat := by
  cases o <;> simp [exceedsCapacity]

/-- Settles O21: of HDR's five outcomes one is a refusal, and it is the one where every check passes but the capacity. -/
theorem capacityIsRefusedExactly : Obligations.CapacityIsRefusedExactly := by
  intro s m w h c sp
  rw [← exceedsCapacity_iff]
  show execHdr m w h c sp s = _ ↔ 22 ≤ s.streamLen ∧ m = Config.magic ∧ (c = 3 ∨ c = 4) ∧ _
  rcases execHdr_cases (rfl : execHdr m w h c sp s = _) with ⟨hl, ho⟩ | ⟨-, hm, ho⟩ | ⟨-, -, h3, h4, ho⟩ |
    ⟨hl, hm, hc, hx, ho⟩ | ⟨-, -, -, hx, ho⟩
  · exact ho ▸ ⟨nofun, fun ⟨hl', _⟩ => absurd hl (Nat.not_lt.mpr hl')⟩
  · exact ho ▸ ⟨nofun, fun ⟨_, hm', _⟩ => absurd hm' hm⟩
  · exact ho ▸ ⟨nofun, fun ⟨_, _, hc, _⟩ => (hc.elim h3 h4).elim⟩
  · exact ⟨fun _ => ⟨hl, hm, hc, hx⟩, fun _ => ho⟩
  · exact ho ▸ ⟨nofun, fun ⟨_, _, _, hx'⟩ => by simp [hx] at hx'⟩

/-! ### The block and IN -/

/-- No move of the block writes IN (R50). -/
theorem BlockMove.inMem_frame {s t : State} (h : BlockMove s t) : t.inMem = s.inMem := by
  cases h <;> rfl

/-- Settles O48: no move of the block writes IN or STREAM_LEN. -/
theorem blockNeverWritesTheStream : Obligations.BlockNeverWritesTheStream := by
  intro s t u hu h
  have hm := blockStep_move ((step_of_blockTurn hu).symm.trans h)
  obtain ⟨q, rfl⟩ := hu.eq_withTurns
  exact ⟨hm.inMem_frame, hm.stream_frame.2⟩

/-- A fetch depends on the bytes it reads alone. -/
theorem fetchBytes_congr {s t : State} {a n : Nat} (h : ∀ k, a ≤ k → k < a + n → memRead1 s k = memRead1 t k) :
    fetchBytes s a n = fetchBytes t a n := by
  induction n generalizing a with
  | zero => rfl
  | succ n ih =>
    rw [fetchBytes, fetchBytes, h a (Nat.le_refl a) (by omega), ih fun k hk hlt => h k (by omega) (by omega)]

/-- A state with other bytes in IN. -/
def withIn (m : Memory) (s : State) : State := { s with inMem := m }

@[simp] theorem withIn_phase (m : Memory) (s : State) : (withIn m s).phase = s.phase := rfl
@[simp] theorem withIn_streamLen (m : Memory) (s : State) : (withIn m s).streamLen = s.streamLen := rfl
@[simp] theorem withIn_cur (m : Memory) (s : State) : (withIn m s).cur = s.cur := rfl
@[simp] theorem withIn_limit (m : Memory) (s : State) : (withIn m s).limit = s.limit := rfl

theorem onNext_ite_next (f : State → State) (c : Prop) [Decidable c] (t : State)
    (o : Host.Outcome State Fault Refusal) :
    onNext f (if c then .next t else o) = if c then .next (f t) else onNext f o :=
  apply_ite ..

section OtherIn

variable {m : Memory} {s : State}

theorem runOpcode_withIn (n : Nat) (p : Pixel) (owed : BitVec 6) (m : Memory) (s : State) :
    runOpcode n p owed (withIn m s) = onNext (withIn m) (runOpcode n p owed s) := by
  simp only [runOpcode, onNext_ite_next]
  rfl

theorem execHdr_withIn (g w h : BitVec 32) (c sp : Byte) (m : Memory) (s : State) :
    execHdr g w h c sp (withIn m s) = onNext (withIn m) (execHdr g w h c sp s) := by
  simp only [execHdr, onNext_ite_next, onNext_ite]
  rfl

/-- No instruction reads IN once its bytes are fetched. -/
theorem exec_withIn (i : Instr) (m : Memory) (s : State) : exec i (withIn m s) = onNext (withIn m) (exec i s) := by
  cases i with
  | hdr => exact execHdr_withIn ..
  | rgb | rgba | run | index | diff | luma => exact runOpcode_withIn ..

theorem memRead1_withIn {a : Nat} (h : Memory.read m a = Memory.read s.inMem a) :
    memRead1 (withIn m s) a = memRead1 s a :=
  if_congr Iff.rfl h rfl

/-- With STREAM_LEN below 22 the HEADER step reads nothing; else it reads the 14 bytes of the header (R91). -/
theorem headerStep_withIn (h : 22 ≤ s.streamLen → ∀ a, a < 14 → Memory.read m a = Memory.read s.inMem a) :
    headerStep (withIn m s) = onNext (withIn m) (headerStep s) := by
  rw [headerStep, headerStep, withIn_streamLen, Config.minStreamLen, Config.headerLen]
  by_cases hl : s.streamLen < 22
  · rw [if_pos hl, if_pos hl]
    rfl
  · have hfetch : fetchBytes (withIn m s) 0 14 = fetchBytes s 0 14 :=
      fetchBytes_congr fun k _ hk => memRead1_withIn (h (by omega) k (by omega))
    rw [if_neg hl, if_neg hl, hfetch]
    cases fetchBytes s 0 14 with
    | error => rfl
    | ok bytes =>
      simp only
      cases decode .header bytes with
      | error => rfl
      | ok r => exact exec_withIn r.1 m s

/-- The fetch reads below LIMIT alone: both bounds are tested before the bytes are read (R112, R113). -/
theorem fetchAndRun_withIn (h : ∀ a, a < s.limit → Memory.read m a = Memory.read s.inMem a) :
    fetchAndRun (withIn m s) = onNext (withIn m) (fetchAndRun s) := by
  rw [fetchAndRun, fetchAndRun, withIn_cur, withIn_limit]
  by_cases hc : s.cur ≥ s.limit
  · rw [if_pos hc, if_pos hc]
    rfl
  rw [if_neg hc, if_neg hc, memRead1_withIn (h s.cur (by omega))]
  cases memRead1 s s.cur with
  | none => rfl
  | some b0 =>
    simp only
    by_cases hx : s.cur + oplen b0 > s.limit
    · rw [if_pos hx, if_pos hx]
      rfl
    have hfetch : fetchBytes (withIn m s) s.cur (oplen b0) = fetchBytes s s.cur (oplen b0) :=
      fetchBytes_congr fun k _ hk => memRead1_withIn (h k (by omega))
    rw [if_neg hx, if_neg hx, hfetch]
    cases fetchBytes s s.cur (oplen b0) with
    | error => rfl
    | ok bytes =>
      simp only
      cases decode .opcode bytes with
      | error => rfl
      | ok r => exact exec_withIn r.1 m s

theorem decodeStep_withIn (h : ∀ a, a < s.limit → Memory.read m a = Memory.read s.inMem a) :
    decodeStep (withIn m s) = onNext (withIn m) (decodeStep s) := by
  simp only [decodeStep, fetchAndRun_withIn h, onNext_ite_next]
  rfl

/-- A step of the block goes the same way with other bytes in IN, if those below LIMIT of a stream that is long enough
are the same (R55). -/
theorem blockStep_withIn (hs : Lawful s)
    (h : 22 ≤ s.streamLen → ∀ a, a < s.limit → Memory.read m a = Memory.read s.inMem a) :
    blockStep (withIn m s) = onNext (withIn m) (blockStep s) := by
  rw [blockStep, blockStep, withIn_phase]
  cases hp : s.phase with
  | idle | done | error => rfl
  | header =>
    refine headerStep_withIn fun hl a ha => h hl a ?_
    show a < s.streamLen - 8
    omega
  | decode =>
    have hl : 22 ≤ s.streamLen := ((hs.cursorBounds (.inl hp)).2 hp).1
    exact decodeStep_withIn (h hl)

end OtherIn

theorem BlockTurn.withIn {s u : State} (h : BlockTurn s u) (m : Memory) : BlockTurn (withIn m s) (withIn m u) := by
  rcases h with ⟨hq, rfl⟩ | ⟨q, hq, rfl⟩
  · exact .inl ⟨hq, rfl⟩
  · exact .inr ⟨q, hq, rfl⟩

/-- Settles O50: a step of the block reads IN in the HEADER step and in the fetch alone, and there below LIMIT. -/
theorem markerIsNeverRead : Obligations.MarkerIsNeverRead := by
  intro s u m hs hu hm
  have hu' : BlockTurn { s with inMem := m } (withIn m u) := hu.withIn m
  rw [step_of_blockTurn hu', step_of_blockTurn hu]
  obtain ⟨q, rfl⟩ := hu.eq_withTurns
  exact blockStep_withIn (hs.withTurns q) hm

/-! ### What is written to OUT -/

section Output

variable {s t : State}

/-- What a move does to OUT: it leaves OUT alone, drops what was appended by an error, or emits a pixel. -/
theorem BlockMove.output_cases (h : BlockMove s t) :
    (t.outMem = s.outMem ∧ t.outLen = s.outLen ∧ (s.phase = .decode → t.phase = .done) ∧
        (t.phase = .error → s.phase = .error)) ∨
      (t.outMem = s.outMem ∧ t.outLen = 0 ∧ t.phase = .error ∧ (s.phase = .header ∨ s.phase = .decode)) ∨
      (s.phase = .decode ∧ t.phase = .decode ∧ s.pxcnt ≠ s.npix ∧ ∃ p, Emits p s t) := by
  cases h with
  | stay hp => exact .inl ⟨rfl, rfl, fun hd => by simp [hd, Phase.busy] at hp, id⟩
  | commit _ _ _ _ hp => exact .inl ⟨rfl, rfl, fun hd => by simp [hp] at hd, nofun⟩
  | finish => exact .inl ⟨rfl, rfl, fun _ => rfl, nofun⟩
  | headerError _ hp => exact .inr (.inl ⟨rfl, rfl, rfl, .inl hp⟩)
  | decodeError hp => exact .inr (.inl ⟨rfl, rfl, rfl, .inr hp⟩)
  | continueRun hp hd => exact .inr (.inr ⟨hp, hp, hd, _, emits_emit ..⟩)
  | opcode _ _ _ hp hd => exact .inr (.inr ⟨hp, hp, hd, _, emits_emit ..⟩)

/-- An emission keeps every byte appended before it (R56): OUT_LEN does not wrap while it is written. -/
theorem Emits.read_below {p : Pixel} (hs : Lawful s) (hp : s.phase = .decode) (hd : s.pxcnt ≠ s.npix)
    (he : Emits p s t) {a : Nat} (ha : a < s.outLen.toNat) : Memory.read t.outMem a = Memory.read s.outMem a := by
  have hroom := hs.room_for_pixel hp hd
  obtain ⟨-, hc, -⟩ := hs.headerParsed (.inl hp)
  have hc3 : 3 ≤ s.channels.toNat := by rcases hc with hc | hc <;> simp [hc]
  have above (i : Nat) (hi : i < s.channels.toNat) : a ≠ (s.outLen + BitVec.ofNat 66 i).toNat := by
    simp only [BitVec.toNat_add, BitVec.toNat_ofNat]
    omega
  exact he.otherBytes a (Nat.ne_of_lt ha) (above 1 (by omega)) (above 2 (by omega)) fun h4 => above 3 (by simp [h4])

theorem BlockMove.read_below (h : BlockMove s t) (hs : Lawful s) {a : Nat} (ha : a < s.outLen.toNat) :
    Memory.read t.outMem a = Memory.read s.outMem a := by
  rcases h.output_cases with ⟨hm, -⟩ | ⟨hm, -⟩ | ⟨hp, -, hd, p, he⟩
  · rw [hm]
  · rw [hm]
  · exact he.read_below hs hp hd ha

theorem BlockMove.outLen_of_emission (h : BlockMove s t) (hs : Lawful s) (hp : s.phase = .decode)
    (ht : t.phase = .decode) : t.outLen.toNat = s.outLen.toNat + s.channels.toNat := by
  rcases h.output_cases with ⟨-, -, hdone, -⟩ | ⟨-, -, herr, -⟩ | ⟨-, -, hd, p, he⟩
  · simp [hdone hp] at ht
  · simp [herr] at ht
  · exact he.length_toNat hs hp hd

theorem BlockMove.outLen_of_error (h : BlockMove s t) (hs : s.phase ≠ .error) (ht : t.phase = .error) :
    t.outLen = 0 := by
  rcases h.output_cases with ⟨-, -, -, herr⟩ | ⟨-, hlen, -⟩ | ⟨-, hdec, -⟩
  · exact absurd (herr ht) hs
  · exact hlen
  · simp [hdec] at ht

/-- OUT_LEN moves with the emissions and the errors of DECODE; an error of HEADER finds it 0. -/
theorem BlockMove.outLen_moved (h : BlockMove s t) (hs : Lawful s) (hlen : t.outLen ≠ s.outLen) :
    s.phase = .decode ∧ (t.phase = .decode ∨ t.phase = .error) := by
  rcases h.output_cases with ⟨-, hsame, -⟩ | ⟨-, hzero, ht, hp | hp⟩ | ⟨hp, ht, -⟩
  · exact absurd hsame hlen
  · obtain ⟨-, -, -, -, -, -, -, -, -, hfresh, -⟩ := hs.headerFresh hp
    exact absurd (hzero.trans hfresh.symm) hlen
  · exact ⟨hp, .inr ht⟩
  · exact ⟨hp, .inl ht⟩

/-- Hardware reset aside, the host writes no byte of OUT, and OUT_LEN by a START that is taken alone. -/
theorem hostStep_output {a : HostAction} (h : hostStep a s = .next t) (hr : a ≠ .reset) :
    t.outMem = s.outMem ∧ ((t.outLen = s.outLen ∧ t.phase = s.phase) ∨
      (a = .start ∧ s.phase.busy = false ∧ t.phase = .header)) := by
  rcases hostStep_next h with ⟨ha, _⟩ | ⟨_, _, rfl⟩ | ⟨ha, hb, rfl⟩ | ⟨_, _, _, _, rfl⟩ | ⟨_, _, _, rfl⟩ |
    ⟨_, _, _, rfl⟩ | ⟨_, _, _, rfl⟩
  · exact absurd ha hr
  · exact ⟨rfl, .inl ⟨rfl, rfl⟩⟩
  · exact ⟨rfl, .inr ⟨ha, hb, rfl⟩⟩
  all_goals exact ⟨rfl, .inl ⟨rfl, rfl⟩⟩

theorem hostStart_outLen (hb : s.phase.busy = false) (h : hostStep .start s = .next t) : t.outLen = 0 := by
  simp only [hostStep, hostStart, hb] at h
  cases h
  rfl

end Output

/-- Settles O47: the block appends by an emission and drops the image by an error, the host starts it anew by START. -/
theorem outputIsAppendOnly : Obligations.OutputIsAppendOnly := by
  intro s t hs h hreset
  rcases step_next h with ⟨u, hu, hb⟩ | ⟨a, u, hu, ha⟩
  · have hm := blockStep_move hb
    obtain ⟨q, rfl⟩ := hu.eq_withTurns
    have hq := hs.withTurns q
    exact ⟨fun _ => hm.read_below hq, fun _ => hm.outLen_of_emission hq, hm.outLen_of_error,
      fun ⟨_, hx⟩ => absurd hx hu.not_hostDoes, fun hlen => .inl ⟨_, hu, hm.outLen_moved hq hlen⟩⟩
  · have har : a ≠ .reset := fun hx => hreset u (hx ▸ hu)
    obtain ⟨hmem, hlen⟩ := hostStep_output ha har
    have hstart (v : State) (hv : HostDoes .start s v) (hh : s.phase ≠ .header) (hd : s.phase ≠ .decode) :
        t.outLen = 0 := by
      rw [step_of_hostDoes hv] at h
      obtain ⟨q, rfl⟩ := hv.eq_withTurns
      exact hostStart_outLen (s := withTurns q s) ((Phase.not_busy_iff _).mpr ⟨hh, hd⟩) h
    obtain ⟨q, hq⟩ := hu.eq_withTurns
    rw [hq] at hmem hlen
    refine ⟨fun _ _ => by rw [hmem, withTurns_outMem], fun ⟨_, hx⟩ => absurd hu hx.not_hostDoes, fun hs' ht => ?_,
      fun ⟨v, hv⟩ => hstart v hv, fun hne => .inr ?_⟩
    · rcases hlen with ⟨-, hp⟩ | ⟨-, -, hp⟩
      · exact absurd (hp.symm.trans ht) hs'
      · simp [hp] at ht
    · rcases hlen with ⟨hsame, -⟩ | ⟨rfl, hb, -⟩
      · exact absurd hsame hne
      · exact ⟨u, hu, (Phase.not_busy_iff _).mp hb⟩

end Sys2Proof.Machine

/-! PROOFS. Encoding: the encoder and the decoder undo each other, and what follows for the first byte, the lengths
and the assembler. -/

namespace Sys2Proof

open Machine

/-! ### Bit fields put together -/

/-- A field in front of `n` lower bits is worth `2 ^ n` times its value. -/
theorem toNat_append_eq_add {m n : Nat} (x : BitVec m) (y : BitVec n) :
    (x ++ y).toNat = x.toNat * 2 ^ n + y.toNat := by
  rw [BitVec.toNat_append, ← Nat.shiftLeft_add_eq_or_of_lt y.isLt, Nat.shiftLeft_eq]

/-- A byte of a 2-bit tag and a 6-bit field (R76, R78, R79). -/
theorem toNat_tag_append (tag : BitVec 2) (field : BitVec 6) :
    (tag ++ field).toNat = tag.toNat * 64 + field.toNat := toNat_append_eq_add tag field

/-- A byte of a 2-bit tag and three 2-bit fields (R77). -/
theorem toNat_tag_append_three (tag f g h : BitVec 2) :
    (tag ++ f ++ g ++ h).toNat = tag.toNat * 64 + f.toNat * 16 + g.toNat * 4 + h.toNat := by
  rw [toNat_append_eq_add, toNat_append_eq_add, toNat_append_eq_add]
  omega

/-- A byte of two nibbles (R78). -/
theorem toNat_nibble_append (hi lo : BitVec 4) : (hi ++ lo).toNat = hi.toNat * 16 + lo.toNat :=
  toNat_append_eq_add hi lo

/-! ### The first byte -/

/-- The byte a typed first byte is written as: the inverse of `decodeFirst` (R73 to R79). -/
def FirstByte.byte : FirstByte → Byte
  | .rgb => 0xFE#8
  | .rgba => 0xFF#8
  | .run frun => 0b11#2 ++ frun
  | .index idx => 0b00#2 ++ idx
  | .diff fr fg fb => 0b01#2 ++ fr ++ fg ++ fb
  | .luma fdg => 0b10#2 ++ fdg

theorem byte_decodeFirst : ∀ b0 : Byte, (decodeFirst b0).byte = b0 := by decide

/-- Runs of 62 and 63 are left out: their bytes are RGB and RGBA (R79). -/
theorem decodeFirst_runByte : ∀ frun : BitVec 6, frun.toNat ≤ 61 → decodeFirst (0b11#2 ++ frun) = .run frun := by decide

theorem decodeFirst_indexByte : ∀ idx : BitVec 6, decodeFirst (0b00#2 ++ idx) = .index idx := by decide

theorem decodeFirst_diffByte :
    ∀ fr fg fb : BitVec 2, decodeFirst (0b01#2 ++ fr ++ fg ++ fb) = .diff fr fg fb := by decide

theorem decodeFirst_lumaByte : ∀ fdg : BitVec 6, decodeFirst (0b10#2 ++ fdg) = .luma fdg := by decide

/-! ### The decoder undoes the encoder -/

theorem decodeOpcode_encode {i : Instr} (hp : i.position = .opcode) (hw : i.wf = true) (rest : List Byte) :
    decodeOpcode (encode i ++ rest) = .ok (i, rest) := by
  cases i with
  | hdr => cases hp
  | rgb => rfl
  | rgba => rfl
  | run frun => simp [encode, decodeOpcode, decodeFirst_runByte frun (by simpa [Instr.wf] using hw)]
  | index idx => simp [encode, decodeOpcode, decodeFirst_indexByte]
  | diff fr fg fb => simp [encode, decodeOpcode, decodeFirst_diffByte]
  | luma fdg frg fbg =>
    have hhi : (frg ++ fbg).extractLsb' 4 4 = frg := BitVec.extractLsb'_append_eq_left
    have hlo : (frg ++ fbg).extractLsb' 0 4 = fbg := BitVec.extractLsb'_append_eq_right
    simp [encode, decodeOpcode, decodeFirst_lumaByte, hhi, hlo]

/-- The same, for bytes known to begin with an encoding. -/
theorem decodeOpcode_of_encode {i : Instr} {bs after : List Byte} (hp : i.position = .opcode) (hw : i.wf = true)
    (h : encode i ++ after = bs) : decodeOpcode bs = .ok (i, after) :=
  h ▸ decodeOpcode_encode hp hw after

/-- A header comes back whatever its magic and channel count are: the decoder checks neither (R71). -/
theorem decodeHeader_encode {i : Instr} (hp : i.position = .header) (rest : List Byte) :
    decodeHeader (encode i ++ rest) = .ok (i, rest) := by
  cases i with
  | hdr => simp [encode, be32Bytes, decodeHeader, be32_of_bytes]
  | rgb | rgba | run | index | diff | luma => cases hp

/-- Settles O1: at either position the decoder undoes the encoder. -/
theorem decodeEncodeRoundTrip : Obligations.DecodeEncodeRoundTrip := by
  intro i rest hw
  cases hp : i.position with
  | header => exact decodeHeader_encode hp rest
  | opcode => exact decodeOpcode_encode hp hw rest

/-! ### The encoder undoes the decoder -/

theorem encode_of_decodeOpcode {b0 : Byte} {rest after : List Byte} {i : Instr}
    (h : decodeOpcode (b0 :: rest) = .ok (i, after)) : encode i ++ after = b0 :: rest := by
  have hb := byte_decodeFirst b0
  simp only [decodeOpcode] at h
  cases hf : decodeFirst b0 with
  | rgb | rgba =>
    rw [hf] at h hb
    simp only at h
    split at h <;> cases h
    exact congrArg (· :: _) hb
  | run | index | diff =>
    rw [hf] at h hb
    cases h
    exact congrArg (· :: _) hb
  | luma fdg =>
    rw [hf] at h hb
    simp only at h
    split at h <;> cases h
    exact congrArg₂ (· :: · :: _) hb BitVec.extractLsb'_append_extractLsb'

theorem encode_of_decodeHeader {bs after : List Byte} {i : Instr} (h : decodeHeader bs = .ok (i, after)) :
    i.position = .header ∧ encode i ++ after = bs := by
  unfold decodeHeader at h
  split at h <;> cases h
  exact ⟨rfl, by simp [encode, be32Bytes_be32]⟩

/-- Settles O2: at either position the encoder undoes the decoder. -/
theorem encodeDecodeInverse : Obligations.EncodeDecodeInverse := by
  intro q bs after i h
  match q, bs, h with
  | .header, _, h => exact encode_of_decodeHeader h
  | .opcode, [], h => cases h
  | .opcode, _ :: _, h => exact ⟨(decodeOpcode_ok h).1, encode_of_decodeOpcode h⟩

/-! ### Lengths -/

theorem length_encode (i : Instr) : (encode i).length = i.size := by
  cases i with
  | hdr => exact Laws.EncodedSize.hdr ..
  | rgb => exact Laws.EncodedSize.rgb ..
  | rgba => exact Laws.EncodedSize.rgba ..
  | run => exact Laws.EncodedSize.run ..
  | index => exact Laws.EncodedSize.index ..
  | diff => exact Laws.EncodedSize.diff ..
  | luma => exact Laws.EncodedSize.luma ..

theorem length_of_decodeOpcode {b0 : Byte} {rest after : List Byte} {i : Instr}
    (h : decodeOpcode (b0 :: rest) = .ok (i, after)) : rest.length + 1 = after.length + oplen b0 := by
  obtain ⟨-, -, hsize⟩ := decodeOpcode_ok h
  have hlen := congrArg List.length (encode_of_decodeOpcode h)
  simp only [List.length_append, List.length_cons, length_encode] at hlen
  omega

theorem decodeOpcode_isOk_iff {b0 : Byte} {rest : List Byte} :
    (∃ i after, decodeOpcode (b0 :: rest) = .ok (i, after)) ↔ oplen b0 ≤ rest.length + 1 := by
  constructor
  · rintro ⟨i, after, h⟩
    have := length_of_decodeOpcode h
    omega
  · intro h
    have hpos := oplen_pos b0
    obtain ⟨i, hi⟩ := decodeOpcode_exact (b0 := b0) (rest := rest.take (oplen b0 - 1)) (by
      rw [List.length_take]
      omega)
    obtain ⟨hp, hw, -⟩ := decodeOpcode_ok hi
    have henc : encode i = b0 :: rest.take (oplen b0 - 1) := by simpa using encode_of_decodeOpcode hi
    exact ⟨i, rest.drop (oplen b0 - 1), decodeOpcode_of_encode hp hw (by simp [henc])⟩

/-- Settles O4: the numbers of R72 are `oplen`, and a decoded opcode has taken that many bytes. -/
theorem opcodeLengthByFirstByte : Obligations.OpcodeLengthByFirstByte :=
  fun _ _ _ _ h => length_of_decodeOpcode h

/-- Settles O5: the numbers of R72 are `oplen`, and that many bytes are always an opcode. -/
theorem onlyMissingBytesAreRejected : Obligations.OnlyMissingBytesAreRejected :=
  fun _ _ => decodeOpcode_isOk_iff

/-! ### The map of the first byte: in each range the fields are digits of the byte (R81) -/

section FirstByteRanges

variable {b0 : Byte} (rest : List Byte)

theorem decodeOpcode_rgb (h : b0.toNat = 0xFE) (r g b : Byte) :
    decodeOpcode (b0 :: r :: g :: b :: rest) = .ok (.rgb r g b, rest) := by
  obtain rfl : b0 = 0xFE#8 := BitVec.eq_of_toNat_eq h
  exact decodeOpcode_encode (i := .rgb r g b) rfl rfl rest

theorem decodeOpcode_rgba (h : b0.toNat = 0xFF) (r g b a : Byte) :
    decodeOpcode (b0 :: r :: g :: b :: a :: rest) = .ok (.rgba r g b a, rest) := by
  obtain rfl : b0 = 0xFF#8 := BitVec.eq_of_toNat_eq h
  exact decodeOpcode_encode (i := .rgba r g b a) rfl rfl rest

theorem decodeOpcode_index (h : b0.toNat ≤ 0x3F) :
    ∃ idx, decodeOpcode (b0 :: rest) = .ok (.index idx, rest) ∧ idx.toNat = b0.toNat := by
  have hidx : (BitVec.ofNat 6 b0.toNat).toNat = b0.toNat := Nat.mod_eq_of_lt (by omega)
  have hb0 : 0b00#2 ++ BitVec.ofNat 6 b0.toNat = b0 :=
    BitVec.eq_of_toNat_eq ((toNat_tag_append ..).trans ((Nat.zero_add _).trans hidx))
  exact ⟨_, decodeOpcode_of_encode rfl rfl (congrArg (· :: rest) hb0), hidx⟩

theorem decodeOpcode_diff (hlo : 0x40 ≤ b0.toNat) (hhi : b0.toNat ≤ 0x7F) :
    ∃ fr fg fb, decodeOpcode (b0 :: rest) = .ok (.diff fr fg fb, rest) ∧
      b0.toNat = 0x40 + fr.toNat * 16 + fg.toNat * 4 + fb.toNat := by
  have hval : b0.toNat = 0x40 + (BitVec.ofNat 2 (b0.toNat / 16)).toNat * 16 +
      (BitVec.ofNat 2 (b0.toNat / 4)).toNat * 4 + (BitVec.ofNat 2 b0.toNat).toNat := by
    simp only [BitVec.toNat_ofNat]
    omega
  have hb0 := BitVec.eq_of_toNat_eq ((toNat_tag_append_three 0b01#2 ..).trans hval.symm)
  exact ⟨_, _, _, decodeOpcode_of_encode rfl rfl (congrArg (· :: rest) hb0), hval⟩

theorem decodeOpcode_luma (hlo : 0x80 ≤ b0.toNat) (hhi : b0.toNat ≤ 0xBF) (b1 : Byte) :
    ∃ fdg frg fbg, decodeOpcode (b0 :: b1 :: rest) = .ok (.luma fdg frg fbg, rest) ∧
      b0.toNat = 0x80 + fdg.toNat ∧ b1.toNat = frg.toNat * 16 + fbg.toNat := by
  have hval0 : b0.toNat = 0x80 + (BitVec.ofNat 6 b0.toNat).toNat := by
    simp only [BitVec.toNat_ofNat]
    omega
  have hval1 : b1.toNat = (BitVec.ofNat 4 (b1.toNat / 16)).toNat * 16 + (BitVec.ofNat 4 b1.toNat).toNat := by
    simp only [BitVec.toNat_ofNat]
    omega
  have hb0 := BitVec.eq_of_toNat_eq ((toNat_tag_append 0b10#2 _).trans hval0.symm)
  have hb1 := BitVec.eq_of_toNat_eq ((toNat_nibble_append ..).trans hval1.symm)
  exact ⟨_, _, _, decodeOpcode_of_encode rfl rfl (congrArg₂ (· :: · :: rest) hb0 hb1), hval0, hval1⟩

theorem decodeOpcode_run (hlo : 0xC0 ≤ b0.toNat) (hhi : b0.toNat ≤ 0xFD) :
    ∃ frun, decodeOpcode (b0 :: rest) = .ok (.run frun, rest) ∧ b0.toNat = 0xC0 + frun.toNat ∧ frun.toNat ≤ 61 := by
  have hval : b0.toNat = 0xC0 + (BitVec.ofNat 6 b0.toNat).toNat := by
    simp only [BitVec.toNat_ofNat]
    omega
  have hb0 := BitVec.eq_of_toNat_eq ((toNat_tag_append 0b11#2 _).trans hval.symm)
  have hle : (BitVec.ofNat 6 b0.toNat).toNat ≤ 61 := by omega
  exact ⟨_, decodeOpcode_of_encode rfl (decide_eq_true hle) (congrArg (· :: rest) hb0), hval, hle⟩

end FirstByteRanges

/-- Settles O3, range by range. -/
theorem firstByteMap : Obligations.FirstByteMap := by
  intro b0 b1 b2 b3 b4 rest bs
  exact ⟨decodeOpcode_index _, decodeOpcode_diff _, fun hlo hhi => decodeOpcode_luma _ hlo hhi b1, decodeOpcode_run _,
    fun h => decodeOpcode_rgb _ h b1 b2 b3, fun h => decodeOpcode_rgba _ h b1 b2 b3 b4⟩

/-! ### Assembler statements -/

theorem toNat_ofNat_byte {n : Nat} (h : n ≤ 255) : (BitVec.ofNat 8 n).toNat = n := Nat.mod_eq_of_lt (by omega)

/-- A formula of R85 that stays within a byte is the value of the byte it gives. -/
theorem toNat_ofInt_byte {x : Int} (hlo : 0 ≤ x) (hhi : x ≤ 255) : ((BitVec.ofInt 8 x).toNat : Int) = x := by
  rw [BitVec.toNat_ofInt]
  omega

theorem inRange_iff {lo hi x : Int} : inRange lo hi x = true ↔ lo ≤ x ∧ x ≤ hi := by simp [inRange]

section Assembled

variable {bs : List Byte} (rest : List Byte)

theorem decodeOpcode_assemble_rgb {r g b : Nat} (h : assemble (.rgb r g b) = some bs) :
    ∃ x y z, decodeOpcode (bs ++ rest) = .ok (.rgb x y z, rest) ∧ x.toNat = r ∧ y.toNat = g ∧ z.toNat = b := by
  simp only [assemble, Option.ite_none_right_eq_some, Option.some.injEq, allBytes, List.all_cons, List.all_nil,
    Bool.and_eq_true, decide_eq_true_eq] at h
  obtain ⟨⟨hr, hg, hb, -⟩, rfl⟩ := h
  exact ⟨_, _, _, decodeOpcode_rgb rest rfl _ _ _, toNat_ofNat_byte hr, toNat_ofNat_byte hg, toNat_ofNat_byte hb⟩

theorem decodeOpcode_assemble_rgba {r g b a : Nat} (h : assemble (.rgba r g b a) = some bs) :
    ∃ x y z w, decodeOpcode (bs ++ rest) = .ok (.rgba x y z w, rest) ∧ x.toNat = r ∧ y.toNat = g ∧ z.toNat = b ∧
      w.toNat = a := by
  simp only [assemble, Option.ite_none_right_eq_some, Option.some.injEq, allBytes, List.all_cons, List.all_nil,
    Bool.and_eq_true, decide_eq_true_eq] at h
  obtain ⟨⟨hr, hg, hb, ha, -⟩, rfl⟩ := h
  exact ⟨_, _, _, _, decodeOpcode_rgba rest rfl _ _ _ _, toNat_ofNat_byte hr, toNat_ofNat_byte hg, toNat_ofNat_byte hb,
    toNat_ofNat_byte ha⟩

theorem decodeOpcode_assemble_index {k : Nat} (h : assemble (.index k) = some bs) :
    ∃ x, decodeOpcode (bs ++ rest) = .ok (.index x, rest) ∧ x.toNat = k := by
  simp only [assemble, Option.ite_none_right_eq_some, Option.some.injEq] at h
  obtain ⟨hk, rfl⟩ := h
  have hb0 := toNat_ofNat_byte (n := k) (by omega)
  obtain ⟨x, hdec, hx⟩ := decodeOpcode_index rest (hb0.trans_le hk)
  exact ⟨x, hdec, hx.trans hb0⟩

theorem decodeOpcode_assemble_diff {dr dg db : Int} (h : assemble (.diff dr dg db) = some bs) :
    ∃ x y z, decodeOpcode (bs ++ rest) = .ok (.diff x y z, rest) ∧ diffDelta x = dr ∧ diffDelta y = dg ∧
      diffDelta z = db := by
  simp only [assemble, Option.ite_none_right_eq_some, Option.some.injEq, Bool.and_eq_true, inRange_iff] at h
  obtain ⟨⟨⟨hr, hg⟩, hb⟩, rfl⟩ := h
  have hb0 := toNat_ofInt_byte (x := 0x40 + (dr + 2) * 16 + (dg + 2) * 4 + (db + 2)) (by omega) (by omega)
  generalize BitVec.ofInt 8 _ = b0 at hb0 ⊢
  obtain ⟨x, y, z, hdec, hfields⟩ := decodeOpcode_diff rest (b0 := b0) (by omega) (by omega)
  have hx := x.isLt
  have hy := y.isLt
  have hz := z.isLt
  simp only [diffDelta, Config.diffBias]
  exact ⟨x, y, z, hdec, by omega, by omega, by omega⟩

theorem decodeOpcode_assemble_luma {dg drg dbg : Int} (h : assemble (.luma dg drg dbg) = some bs) :
    ∃ x y z, decodeOpcode (bs ++ rest) = .ok (.luma x y z, rest) ∧ lumaGreenDelta x = dg ∧ lumaDelta x y = drg + dg ∧
      lumaDelta x z = dbg + dg := by
  simp only [assemble, Option.ite_none_right_eq_some, Option.some.injEq, Bool.and_eq_true, inRange_iff] at h
  obtain ⟨⟨⟨hg, hr⟩, hb⟩, rfl⟩ := h
  have hb0 := toNat_ofInt_byte (x := 0x80 + (dg + 32)) (by omega) (by omega)
  have hb1 := toNat_ofInt_byte (x := (drg + 8) * 16 + (dbg + 8)) (by omega) (by omega)
  generalize BitVec.ofInt 8 (0x80 + _) = b0, BitVec.ofInt 8 _ = b1 at hb0 hb1 ⊢
  obtain ⟨x, y, z, hdec, hgreen, hnibbles⟩ := decodeOpcode_luma rest (b0 := b0) (by omega) (by omega) b1
  have hy := y.isLt
  have hz := z.isLt
  simp only [lumaDelta, lumaGreenDelta, Config.lumaGreenBias, Config.lumaNibbleBias]
  exact ⟨x, y, z, hdec, by omega, by omega, by omega⟩

theorem decodeOpcode_assemble_run {n : Nat} (h : assemble (.run n) = some bs) :
    ∃ x, decodeOpcode (bs ++ rest) = .ok (.run x, rest) ∧ x.toNat + 1 = n := by
  simp only [assemble, Option.ite_none_right_eq_some, Option.some.injEq] at h
  obtain ⟨hn, rfl⟩ := h
  have hb0 := toNat_ofNat_byte (n := 0xC0 + (n - 1)) (by omega)
  obtain ⟨x, hdec, hx, -⟩ := decodeOpcode_run rest (b0 := BitVec.ofNat 8 (0xC0 + (n - 1))) (by omega) (by omega)
  exact ⟨x, hdec, by omega⟩

theorem decodeHeader_assemble_qoif {w h c sp : Nat} (ha : assemble (.qoif w h c sp) = some bs) :
    ∃ x y c' sp', decodeHeader (bs ++ rest) = .ok (.hdr Config.magic x y c' sp', rest) ∧ x.toNat = w ∧ y.toNat = h ∧
      c'.toNat = c ∧ sp'.toNat = sp := by
  simp only [assemble, Option.ite_none_right_eq_some, Option.some.injEq, allBytes, List.all_cons, List.all_nil,
    Bool.and_eq_true, decide_eq_true_eq] at ha
  obtain ⟨⟨hw, hh, hc, hsp, -⟩, rfl⟩ := ha
  exact ⟨_, _, _, _, decodeHeader_encode (i := .hdr Config.magic _ _ _ _) rfl rest, Nat.mod_eq_of_lt hw,
    Nat.mod_eq_of_lt hh, toNat_ofNat_byte hc, toNat_ofNat_byte hsp⟩

end Assembled

/-- Settles O8, statement by statement. -/
theorem assembledStatementsDecode : Obligations.AssembledStatementsDecode :=
  fun _ rest => ⟨fun _ _ _ => decodeOpcode_assemble_rgb rest, fun _ _ _ _ => decodeOpcode_assemble_rgba rest,
    fun _ => decodeOpcode_assemble_index rest, fun _ _ _ => decodeOpcode_assemble_diff rest,
    fun _ _ _ => decodeOpcode_assemble_luma rest, fun _ => decodeOpcode_assemble_run rest,
    fun _ _ _ _ => decodeHeader_assemble_qoif rest⟩

/-! ### Words written out -/

/-- Settles O7: each word is the encoding of its instruction. -/
theorem writtenOutWordsDecode : Obligations.WrittenOutWordsDecode :=
  ⟨decodeOpcode_of_encode rfl rfl (by decide), decodeOpcode_of_encode rfl rfl (by decide),
    decodeOpcode_of_encode rfl rfl (by decide), decodeOpcode_of_encode rfl rfl (by decide),
    decodeOpcode_of_encode rfl rfl (by decide), decodeOpcode_of_encode rfl rfl (by decide)⟩

end Sys2Proof

/-! PROOFS. The header: what HDR answers to a record, the HEADER step on the bytes of the stream, and the registers
that no later step writes. -/

namespace Sys2Proof.Machine

/-! ### HDR, outcome by outcome -/

section Record

variable {s : State} {m w h : BitVec 32} {c : Byte}

theorem execHdr_short (sp : Byte) (hl : s.streamLen < 22) : execHdr m w h c sp s = .next (raise .truncated s) :=
  if_pos hl

theorem execHdr_badMagic (sp : Byte) (hl : 22 ≤ s.streamLen) (hm : m ≠ Config.magic) :
    execHdr m w h c sp s = .next (raise .badMagic s) :=
  (if_neg (Nat.not_lt.mpr hl)).trans (if_pos hm)

/-- Past the length and the magic what is left of HDR is the channel count and the capacity (R98). -/
theorem execHdr_magic (sp : Byte) (hl : 22 ≤ s.streamLen) (hm : m = Config.magic) : execHdr m w h c sp s =
    if c ≠ 3 ∧ c ≠ 4 then .next (raise .invalidChannelCount s)
    else if exceedsCapacity w h c s.outCap then .refused .outputCapacity
    else .next (commitHeader w h c sp s) :=
  (if_neg (Nat.not_lt.mpr hl)).trans (if_neg fun hne => hne hm)

theorem execHdr_invalidChannelCount (sp : Byte) (hl : 22 ≤ s.streamLen) (hm : m = Config.magic) (h3 : c ≠ 3)
    (h4 : c ≠ 4) : execHdr m w h c sp s = .next (raise .invalidChannelCount s) :=
  (execHdr_magic sp hl hm).trans (if_pos ⟨h3, h4⟩)

/-- Past all three checks what is left of HDR is the capacity (R59). -/
theorem execHdr_channels (sp : Byte) (hl : 22 ≤ s.streamLen) (hm : m = Config.magic) (hc : c = 3 ∨ c = 4) :
    execHdr m w h c sp s =
      if exceedsCapacity w h c s.outCap then .refused .outputCapacity else .next (commitHeader w h c sp s) :=
  (execHdr_magic sp hl hm).trans (if_neg fun ⟨h3, h4⟩ => hc.elim h3 h4)

theorem execHdr_overCapacity (sp : Byte) (hl : 22 ≤ s.streamLen) (hm : m = Config.magic) (hc : c = 3 ∨ c = 4)
    (hx : ∃ cap, s.outCap = some cap ∧ cap < w.toNat * h.toNat * c.toNat) :
    execHdr m w h c sp s = .refused .outputCapacity :=
  (execHdr_channels sp hl hm hc).trans (if_pos (exceedsCapacity_iff.mpr hx))

theorem execHdr_commits (sp : Byte) (hl : 22 ≤ s.streamLen) (hm : m = Config.magic) (hc : c = 3 ∨ c = 4)
    (hfits : ∀ cap, s.outCap = some cap → w.toNat * h.toNat * c.toNat ≤ cap) :
    execHdr m w h c sp s = .next (commitHeader w h c sp s) := by
  refine (execHdr_channels sp hl hm hc).trans (if_neg fun hx => ?_)
  obtain ⟨cap, hcap, hlt⟩ := exceedsCapacity_iff.mp hx
  exact absurd (hfits cap hcap) (Nat.not_le.mpr hlt)

end Record

/-- Settles O19: HDR answers the committed header, field by field. -/
theorem headerCommits : Obligations.HeaderCommits := by
  intro s w h c sp hl hc hfits
  exact ⟨commitHeader w h c sp s, execHdr_commits sp hl rfl hc hfits, rfl, rfl, rfl, rfl, rfl, pixelTotal_toNat w h,
    rfl, rfl, rfl, rfl, rfl, rfl, rfl, rfl, rfl, rfl, rfl, rfl, rfl, rfl, rfl⟩

/-- Settles O20: one equation of HDR for each check. -/
theorem headerErrorOrder : Obligations.HeaderErrorOrder := by
  intro s m w h c sp
  exact ⟨execHdr_short sp, execHdr_badMagic sp, execHdr_invalidChannelCount sp⟩

/-! ### The HEADER step on the stream -/

section HeaderStep

variable {s u : State}

theorem step_of_header (hu : BlockTurn s u) (hp : s.phase = .header) : step s = headerStep u := by
  rw [step_of_blockTurn hu]
  obtain ⟨q, rfl⟩ := hu.eq_withTurns
  rw [blockStep, withTurns_phase, hp]

/-- A stream shorter than the least legal one is Truncated before a byte is read (R91). -/
theorem headerStep_short (hl : s.streamLen < 22) : headerStep s = .next (raise .truncated s) := if_pos hl

/-- The 14 bytes of the header are fetched where its five fields can be read. -/
theorem fetchBytes_header {m w h : BitVec 32} {c sp : Byte} (hm : memRead4 s 0 = some m) (hw : memRead4 s 4 = some w)
    (hh : memRead4 s 8 = some h) (hc : memRead1 s 12 = some c) (hsp : memRead1 s 13 = some sp) :
    ∃ bytes, fetchBytes s 0 14 = .ok bytes ∧ decodeHeader bytes = .ok (.hdr m w h c sp, []) := by
  obtain ⟨m0, m1, m2, m3, hm0, hm1, hm2, hm3, rfl⟩ := memRead4_eq_some.mp hm
  obtain ⟨w0, w1, w2, w3, hw0, hw1, hw2, hw3, rfl⟩ := memRead4_eq_some.mp hw
  obtain ⟨h0, h1, h2, h3, hh0, hh1, hh2, hh3, rfl⟩ := memRead4_eq_some.mp hh
  refine ⟨[m0, m1, m2, m3, w0, w1, w2, w3, h0, h1, h2, h3, c, sp], ?_, rfl⟩
  simp [fetchBytes, *]

/-- Where the five fields can be read, the HEADER step is HDR on them (R90). -/
theorem headerStep_of_reads {m w h : BitVec 32} {c sp : Byte} (hl : 22 ≤ s.streamLen) (hm : memRead4 s 0 = some m)
    (hw : memRead4 s 4 = some w) (hh : memRead4 s 8 = some h) (hc : memRead1 s 12 = some c)
    (hsp : memRead1 s 13 = some sp) : headerStep s = execHdr m w h c sp s := by
  obtain ⟨bytes, hfetch, hdec⟩ := fetchBytes_header hm hw hh hc hsp
  have hlen : ¬ s.streamLen < Config.minStreamLen := Nat.not_lt.mpr hl
  simp only [headerStep, if_neg hlen, Config.headerLen, hfetch, decode, hdec]
  rfl

end HeaderStep

/-- Settles O17: the HEADER step tests the length first. -/
theorem shortStreamIsTruncated : Obligations.ShortStreamIsTruncated := by
  intro s u hu hp hl
  rw [step_of_header hu hp]
  obtain ⟨q, rfl⟩ := hu.eq_withTurns
  exact headerStep_short hl

/-- Settles O18: the HEADER step is HDR on the five fields, and HDR has an equation for each outcome. -/
theorem headerStepOnTheStream : Obligations.HeaderStepOnTheStream := by
  intro s u m w h c sp hu hp hl hm hw hh hc hsp
  rw [step_of_header hu hp]
  obtain ⟨q, rfl⟩ := hu.eq_withTurns
  replace hl : 22 ≤ (withTurns q s).streamLen := hl
  rw [headerStep_of_reads hl hm hw hh hc hsp]
  exact ⟨execHdr_badMagic sp hl, execHdr_invalidChannelCount sp hl, execHdr_commits sp hl, execHdr_overCapacity sp hl⟩

/-! ### An image with no pixel -/

theorem pixelTotal_eq_zero {w h : BitVec 32} (hz : w = 0 ∨ h = 0) : pixelTotal w h = 0 := by
  apply BitVec.eq_of_toNat_eq
  rcases hz with rfl | rfl <;> simp [pixelTotal_toNat]

/-- In DECODE a block that owes no pixel is DONE in its next step, without a fetch (R114). -/
theorem step_of_complete {s u : State} (hu : BlockTurn s u) (hp : s.phase = .decode) (hd : s.pxcnt = s.npix) :
    step s = .next (finish u) := by
  rw [step_of_blockTurn hu]
  obtain ⟨q, rfl⟩ := hu.eq_withTurns
  rw [blockStep, withTurns_phase, hp]
  exact if_pos hd

/-- Settles O22: with NPIX 0 the committed header is at once complete. -/
theorem zeroSizedImageIsDone : Obligations.ZeroSizedImageIsDone := by
  intro s w h c sp hq hl hc hfits
  refine ⟨commitHeader w h c sp s, execHdr_commits sp hl rfl hc hfits, pixelTotal_toNat w h, fun hz hpx hlen => ?_⟩
  have hnpix : pixelTotal w h = 0 := pixelTotal_eq_zero hz
  exact ⟨hnpix, hlen, step_of_complete (.inl ⟨hq, rfl⟩) rfl (hpx.trans hnpix.symm)⟩

/-! ### The header after its step -/

/-- The flag, the header registers and NPIX are the same in both states. -/
def SameHeader (s t : State) : Prop :=
  t.magicValid = s.magicValid ∧ t.width = s.width ∧ t.height = s.height ∧ t.channels = s.channels ∧
    t.colorspace = s.colorspace ∧ t.npix = s.npix

theorem SameHeader.refl (s : State) : SameHeader s s := ⟨rfl, rfl, rfl, rfl, rfl, rfl⟩

section SameHeader

variable {s t : State}

/-- The commit of the HEADER step is the one move that writes the header (R101). -/
theorem BlockMove.sameHeader (h : BlockMove s t) (hp : s.phase ≠ .header) : SameHeader s t := by
  cases h with
  | commit _ _ _ _ hh => exact absurd hh hp
  | stay | headerError | finish | decodeError | continueRun | opcode => exact .refl s

/-- Hardware reset and a START that is taken aside, nothing the host does writes the header. -/
theorem hostStep_sameHeader {a : HostAction} (h : hostStep a s = .next t) (hr : a ≠ .reset)
    (hs : a = .start → s.phase.busy = true) : SameHeader s t := by
  rcases hostStep_next h with ⟨ha, _⟩ | ⟨_, _, rfl⟩ | ⟨ha, hb, _⟩ | ⟨_, _, _, _, rfl⟩ | ⟨_, _, _, rfl⟩ |
    ⟨_, _, _, rfl⟩ | ⟨_, _, _, rfl⟩
  · exact absurd ha hr
  · exact .refl t
  · simp [hs ha] at hb
  all_goals exact .refl s

end SameHeader

/-- Settles O43: outside HEADER no move of the block writes the header, and in DECODE a START is not taken. -/
theorem headerIsImmutable : Obligations.HeaderIsImmutable := by
  intro s t h hp hreset hstart
  rcases step_next h with ⟨u, hu, hb⟩ | ⟨a, u, hu, ha⟩
  · obtain ⟨q, rfl⟩ := hu.eq_withTurns
    exact (blockStep_move hb).sameHeader hp
  · have har : a ≠ .reset := fun hx => hreset u (hx ▸ hu)
    have has : a = .start → s.phase.busy = true := fun hx =>
      hstart.elim (fun hd => by rw [hd]; rfl) fun hnot => absurd (hx ▸ hu) (hnot u)
    obtain ⟨q, rfl⟩ := hu.eq_withTurns
    exact hostStep_sameHeader (s := withTurns q s) ha har has

end Sys2Proof.Machine

/-! PROOFS. The decode loop: the moves of the phase table, the DECODE step branch by branch, a run in single steps, and
the end of every decode. -/

namespace Sys2Proof.Machine

/-! ### The phase machine -/

theorem Phase.busy_iff (p : Phase) : p.busy = true ↔ p = .header ∨ p = .decode := by cases p <;> decide

theorem Phase.not_busy_iff_idle_or_ended (p : Phase) : p.busy = false ↔ p = .idle ∨ p = .done ∨ p = .error := by
  cases p <;> decide

/-- In IDLE, DONE and ERROR no step of the block is enabled (R121, log entry 7). -/
theorem blockStep_of_not_busy {s : State} (h : s.phase.busy = false) : blockStep s = .next s := by
  unfold blockStep
  rcases (Phase.not_busy_iff_idle_or_ended _).mp h with hp | hp | hp <;> rw [hp]

/-- Settles O13: the block's turn outside a decode answers the state it starts from. -/
theorem noStepOutsideADecode : Obligations.NoStepOutsideADecode := by
  intro s u hu hp
  rw [step_of_blockTurn hu]
  obtain ⟨q, rfl⟩ := hu.eq_withTurns
  exact blockStep_of_not_busy ((Phase.not_busy_iff_idle_or_ended _).mpr hp)

/-- The rows of the phase table that are moves of the block (R121). -/
theorem BlockMove.phase_moves {s t : State} (h : BlockMove s t) :
    (s.phase = .header ∧ (t.phase = .decode ∨ t.phase = .error)) ∨
      (s.phase = .decode ∧ s.pxcnt = s.npix ∧ t.phase = .done) ∨
      (s.phase = .decode ∧ s.pxcnt ≠ s.npix ∧ t.phase = .decode ∧ t.pxcnt = s.pxcnt + 1) ∨
      (s.phase = .decode ∧ s.pxcnt ≠ s.npix ∧ t.phase = .error) ∨
      ((s.phase = .idle ∨ s.phase = .done ∨ s.phase = .error) ∧ t = s) := by
  have emitted {p : Pixel} {v : State} (hp : s.phase = .decode) (hd : s.pxcnt ≠ s.npix) (he : Emits p s v) :
      s.phase = .decode ∧ s.pxcnt ≠ s.npix ∧ v.phase = .decode ∧ v.pxcnt = s.pxcnt + 1 := by
    obtain ⟨hphase, -⟩ := he.control
    exact ⟨hp, hd, hphase.trans hp, he.count⟩
  cases h with
  | stay hp => exact .inr (.inr (.inr (.inr ⟨(Phase.not_busy_iff_idle_or_ended _).mp hp, rfl⟩)))
  | headerError _ hp => exact .inl ⟨hp, .inr rfl⟩
  | commit _ _ _ _ hp => exact .inl ⟨hp, .inl rfl⟩
  | finish hp hd => exact .inr (.inl ⟨hp, hd, rfl⟩)
  | decodeError hp hd => exact .inr (.inr (.inr (.inl ⟨hp, hd, rfl⟩)))
  | continueRun hp hd => exact .inr (.inr (.inl (emitted hp hd (emits_emit ..))))
  | opcode _ _ _ hp hd => exact .inr (.inr (.inl (emitted hp hd (emits_emit ..))))

/-- START and hardware reset aside, nothing the host does writes STATE (R40). -/
theorem hostStep_phase {a : HostAction} {s t : State} (h : hostStep a s = .next t) (hr : a ≠ .reset)
    (hs : a ≠ .start) : t.phase = s.phase := by
  rcases hostStep_next h with ⟨ha, _⟩ | ⟨ha, _⟩ | ⟨ha, _⟩ | ⟨_, _, _, _, rfl⟩ | ⟨_, _, _, rfl⟩ | ⟨_, _, _, rfl⟩ |
    ⟨_, _, _, rfl⟩
  · exact absurd ha hr
  · exact absurd ha hs
  · exact absurd ha hs
  all_goals rfl

/-- START is taken outside HEADER and DECODE and ignored there (R182, R183). -/
theorem hostStart_next {s t : State} (h : hostStep .start s = .next t) :
    (s.phase.busy = false ∧ t = startDecode s) ∨ (s.phase.busy = true ∧ t = s) := by
  cases hb : s.phase.busy <;> simp only [hostStep, hostStart, hb] at h <;> cases h
  · exact .inl ⟨rfl, rfl⟩
  · exact .inr ⟨rfl, rfl⟩

/-- Settles O16: the block's rows are its moves, the host's are reset, START and the actions that keep STATE. -/
theorem phaseMachine : Obligations.PhaseMachine := by
  intro s t h
  rcases step_next h with ⟨u, hu, hb⟩ | ⟨a, u, hu, ha⟩
  · have hmoves := (blockStep_move hb).phase_moves
    refine .inr (.inr (.inr (.inr ⟨u, hu, ?_⟩)))
    obtain ⟨q, hq⟩ := hu.eq_withTurns
    rw [hq] at hmoves ⊢
    exact hmoves
  · obtain ⟨q, hq⟩ := hu.eq_withTurns
    have hphase : u.phase = s.phase := by rw [hq, withTurns_phase]
    by_cases hr : a = .reset
    · subst hr
      cases ha
      exact .inl ⟨u, hu, rfl⟩
    by_cases hs : a = .start
    · subst hs
      rcases hostStart_next ha with ⟨hb, rfl⟩ | ⟨hb, rfl⟩
      · obtain ⟨hh, hd⟩ := (Phase.not_busy_iff _).mp (hphase ▸ hb)
        exact .inr (.inl ⟨u, hu, hh, hd, rfl⟩)
      · exact .inr (.inr (.inl ⟨t, hu, (Phase.busy_iff _).mp (hphase ▸ hb), rfl⟩))
    · exact .inr (.inr (.inr (.inl ⟨a, u, hu, hr, hs, (hostStep_phase ha hr hs).trans hphase⟩)))

/-! ### The DECODE step, branch by branch -/

/-- Settles O32: the first test of the DECODE step. -/
theorem completionEndsTheDecode : Obligations.CompletionEndsTheDecode := fun _ _ => step_of_complete

section DecodeStep

variable {s u : State} (hu : BlockTurn s u) (hp : s.phase = .decode) (hd : s.pxcnt ≠ s.npix)
include hu hp hd

/-- With pixels owed a DECODE step continues the run in progress or fetches (R117). -/
theorem step_of_pixel_owed : step s = if u.run ≠ 0 then .next (continueRun u) else fetchAndRun u := by
  rw [step_of_blockTurn hu]
  obtain ⟨q, rfl⟩ := hu.eq_withTurns
  rw [blockStep, withTurns_phase, hp]
  exact if_neg hd

/-- A run in progress goes on, whatever CUR and IN are (R111). -/
theorem step_of_run (hr : s.run ≠ 0) : step s = .next (continueRun u) := by
  rw [step_of_pixel_owed hu hp hd]
  obtain ⟨q, rfl⟩ := hu.eq_withTurns
  exact if_pos hr

/-- With no run in progress the step fetches (R110). -/
theorem step_of_fetch (hr : s.run = 0) : step s = fetchAndRun u := by
  rw [step_of_pixel_owed hu hp hd]
  obtain ⟨q, rfl⟩ := hu.eq_withTurns
  exact if_neg fun hne => hne hr

end DecodeStep

/-- Settles O33: a run continuation is an emission of PREV that moves CUR by 0. -/
theorem runContinuationEmitsPrev : Obligations.RunContinuationEmitsPrev := by
  intro s u hu hp hd hr
  refine ⟨continueRun u, step_of_run hu hp hd hr, ?_⟩
  obtain ⟨q, rfl⟩ := hu.eq_withTurns
  exact ⟨emits_emit _ _ _ _, by rw [continueRun_run, withTurns_run], by rw [continueRun_cur, withTurns_cur]⟩

section Fetch

variable {s : State}

theorem fetchAndRun_used_up (hc : s.limit ≤ s.cur) : fetchAndRun s = .next (raise .unexpectedEndOfStream s) := if_pos hc

theorem fetchAndRun_cut {b0 : Byte} (hc : s.cur < s.limit) (hb : memRead1 s s.cur = some b0)
    (hx : s.limit < s.cur + oplen b0) : fetchAndRun s = .next (raise .unexpectedEndOfStream s) := by
  rw [fetchAndRun, if_neg (Nat.not_le.mpr hc), hb]
  exact if_pos hx

/-- Where the bytes at CUR are an opcode below LIMIT, the fetch runs it (R110). -/
theorem fetchAndRun_opcode {i : Instr} {bs : List Byte} (hbs : fetchBytes s s.cur i.size = .ok bs)
    (hdec : decodeOpcode bs = .ok (i, [])) (hf : s.cur + i.size ≤ s.limit) : fetchAndRun s = exec i s := by
  match bs, hdec with
  | b0 :: rest, hdec =>
    obtain ⟨-, -, hsize⟩ := decodeOpcode_ok hdec
    have hb : memRead1 s s.cur = some b0 := (fetchBytes_ok hbs).2 0 (Nat.zero_lt_succ _)
    have hpos := (oplen_pos b0).1
    rw [hsize] at hbs hf
    rw [fetchAndRun, if_neg (by omega), hb]
    simp only [if_neg (Nat.not_lt.mpr hf), hbs, decode, hdec]

/-- Where the 14 bytes at index 0 can be read, the HEADER step runs the record they are (R90). -/
theorem headerStep_record {i : Instr} {bs : List Byte} (hl : 22 ≤ s.streamLen) (hbs : fetchBytes s 0 14 = .ok bs)
    (hdec : decodeHeader bs = .ok (i, [])) : headerStep s = exec i s := by
  have hlen : ¬ s.streamLen < Config.minStreamLen := Nat.not_lt.mpr hl
  simp only [headerStep, if_neg hlen, Config.headerLen, hbs, decode, hdec]

end Fetch

/-- A fetch does not look at the turns. -/
@[simp] theorem fetchBytes_withTurns (q : List HostTurn) (s : State) (a n : Nat) :
    fetchBytes (withTurns q s) a n = fetchBytes s a n := fetchBytes_congr fun _ _ _ => rfl

/-- Settles O34: the fetch bound is tested before `IN[CUR]` is read. -/
theorem fetchBoundRaises : Obligations.FetchBoundRaises := by
  intro s u hu hp hd hr hc
  rw [step_of_fetch hu hp hd hr]
  obtain ⟨q, rfl⟩ := hu.eq_withTurns
  exact fetchAndRun_used_up hc

/-- Settles O35: the operand bound is tested before the operands are read. -/
theorem operandBoundRaises : Obligations.OperandBoundRaises := by
  intro s u b0 hu hp hd hr hc hb hx
  rw [step_of_fetch hu hp hd hr]
  obtain ⟨q, rfl⟩ := hu.eq_withTurns
  exact fetchAndRun_cut hc hb hx

/-- Settles O31: the fetch of DECODE and the HEADER step run what the bytes decode to. -/
theorem stepRunsTheDecodedInstruction : Obligations.StepRunsTheDecodedInstruction := by
  intro s u bs i hu
  refine ⟨fun hp hd hr hbs hdec hf => ?_, fun hp hl hbs hdec => ?_⟩
  · rw [step_of_fetch hu hp hd hr]
    obtain ⟨q, rfl⟩ := hu.eq_withTurns
    exact fetchAndRun_opcode (by simpa using hbs) hdec hf
  · rw [step_of_header hu hp]
    obtain ⟨q, rfl⟩ := hu.eq_withTurns
    exact headerStep_record hl (by simpa using hbs) hdec

/-! ### A run in single steps -/

/-- The bytes a pixel is appended as stand at an address of OUT: r, g, b, and a with 4 channels (R142). -/
def PixelAt (m : Memory) (a : Nat) (channels : Byte) (p : Pixel) : Prop :=
  Memory.read m a = some p.r ∧ Memory.read m (a + 1) = some p.g ∧ Memory.read m (a + 2) = some p.b ∧
    (channels = 4 → Memory.read m (a + 3) = some p.a)

/-- A pixel stays where it is while its CHANNELS bytes read the same. -/
theorem PixelAt.of_read_eq {m n : Memory} {a : Nat} {c : Byte} {p : Pixel} (h : PixelAt m a c p) (hc : 3 ≤ c.toNat)
    (hread : ∀ k, k < a + c.toNat → Memory.read n k = Memory.read m k) : PixelAt n a c p := by
  obtain ⟨hr, hg, hb, ha⟩ := h
  refine ⟨?_, ?_, ?_, fun h4 => ?_⟩
  · rw [hread _ (by omega), hr]
  · rw [hread _ (by omega), hg]
  · rw [hread _ (by omega), hb]
  · rw [hread _ (by simp [h4]), ha h4]

section Appended

variable {s t : State} {p : Pixel} (h : Lawful s) (hp : s.phase = .decode)
include h hp

theorem Lawful.three_le_channels : 3 ≤ s.channels.toNat := by
  obtain ⟨-, hc, -⟩ := h.headerParsed (.inl hp)
  rcases hc with hc | hc <;> simp [hc]

variable (hd : s.pxcnt ≠ s.npix)
include hd

/-- The addresses of an appended pixel do not wrap (R39). -/
theorem Lawful.outLen_add_toNat {i : Nat} (hi : i < s.channels.toNat) :
    (s.outLen + BitVec.ofNat 66 i).toNat = s.outLen.toNat + i := by
  have hroom := h.room_for_pixel hp hd
  simp only [BitVec.toNat_add, BitVec.toNat_ofNat]
  omega

/-- Where the pixel of an emission stands: at OUT_LEN (R142). -/
theorem Emits.pixelAt (he : Emits p s t) : PixelAt t.outMem s.outLen.toNat s.channels p := by
  have hc := h.three_le_channels hp
  have addr {i : Nat} (hi : i < s.channels.toNat) := h.outLen_add_toNat hp hd hi
  refine ⟨he.red, ?_, ?_, fun h4 => ?_⟩
  · rw [← addr (i := 1) (by omega)]
    exact he.green
  · rw [← addr (i := 2) (by omega)]
    exact he.blue
  · rw [← addr (i := 3) (by simp [h4])]
    exact he.alpha h4

/-- An emission writes no byte of OUT but the CHANNELS bytes at OUT_LEN. -/
theorem Emits.read_outside (he : Emits p s t) {a : Nat}
    (ha : a < s.outLen.toNat ∨ s.outLen.toNat + s.channels.toNat ≤ a) :
    Memory.read t.outMem a = Memory.read s.outMem a := by
  have hc := h.three_le_channels hp
  have other {i : Nat} (hi : i < s.channels.toNat) : a ≠ (s.outLen + BitVec.ofNat 66 i).toNat := by
    rw [h.outLen_add_toNat hp hd hi]
    omega
  exact he.otherBytes a (by omega) (other (i := 1) (by omega)) (other (i := 2) (by omega))
    fun h4 => other (i := 3) (by simp [h4])

end Appended

/-- A state with everything blanked that the emissions of DECODE write. -/
def blankOutput (s : State) : State :=
  { s with cur := 0, pxcnt := 0, run := 0, prev := Config.prevInit, cache := Config.cacheInit, outMem := [], outLen := 0 }

theorem blankOutput_emit (p : Pixel) (n : Nat) (owed : BitVec 6) (s : State) :
    blankOutput (emit p (advance n owed s)) = blankOutput s := rfl

/-- What `k` emissions of `p` in a row do between two states. CUR and RUN are the steps' own and are not spoken of. -/
structure Repeats (p : Pixel) (k : Nat) (s t : State) : Prop where
  /-- PXCNT grows by `k` (R143). -/
  count : t.pxcnt.toNat = s.pxcnt.toNat + k
  /-- Where PREV is `p`, it stays `p` (R144). -/
  prev : s.prev = p → t.prev = p
  /-- The one slot written is that of `p` (R141). -/
  cache : ∀ j, cacheRead t.cache j = if 0 < k ∧ j = pixelHash p then p else cacheRead s.cache j
  /-- OUT_LEN grows by CHANNELS for each pixel (R142). -/
  length : t.outLen.toNat = s.outLen.toNat + k * s.channels.toNat
  /-- The pixels stand one after the other from OUT_LEN. -/
  pixels : ∀ j, j < k → PixelAt t.outMem (s.outLen.toNat + j * s.channels.toNat) s.channels p
  /-- Every other byte of OUT reads as before. -/
  otherBytes : ∀ a, a < s.outLen.toNat ∨ s.outLen.toNat + k * s.channels.toNat ≤ a →
    Memory.read t.outMem a = Memory.read s.outMem a
  /-- Nothing else changes. -/
  rest : blankOutput t = blankOutput s

theorem Repeats.refl (p : Pixel) (s : State) : Repeats p 0 s s where
  count := rfl
  prev := id
  cache _ := by simp
  length := by simp
  pixels := nofun
  otherBytes _ _ := rfl
  rest := rfl

/-- One emission more, before the others. -/
theorem Repeats.cons {p : Pixel} {k n : Nat} {owed : BitVec 6} {s u : State} (h : Lawful s) (hp : s.phase = .decode)
    (hd : s.pxcnt ≠ s.npix) (hr : Repeats p k (emit p (advance n owed s)) u) : Repeats p (k + 1) s u := by
  have he := emits_emit p s n owed
  obtain ⟨-, -, -, hch, -, -⟩ := he.header
  have hlen := he.length_toNat h hp hd
  have hmul := Nat.add_one_mul k s.channels.toNat
  have hlength := hr.length
  have hother := hr.otherBytes
  have hpixels := hr.pixels
  rw [hch] at hlength hother hpixels
  exact {
    count := by rw [hr.count, he.count_toNat h hp hd, Nat.add_assoc, Nat.add_comm 1]
    prev := fun _ => hr.prev he.prev
    cache := fun j => by
      rw [hr.cache]
      by_cases hj : j = pixelHash p
      · rw [hj, he.slot, ite_self, if_pos ⟨k.succ_pos, rfl⟩]
      · rw [if_neg fun hx => hj hx.2, he.otherSlots j hj, if_neg fun hx => hj hx.2]
    length := by omega
    pixels := fun j hj => by
      cases j with
      | zero =>
        rw [Nat.zero_mul]
        exact (he.pixelAt h hp hd).of_read_eq (h.three_le_channels hp) fun a ha => hother a (.inl (by omega))
      | succ j =>
        have := hpixels j (by omega)
        rwa [hlen, Nat.add_assoc, Nat.add_comm s.channels.toNat, ← Nat.succ_mul] at this
    otherBytes := fun a ha => by
      rw [hother a (by omega), he.read_outside h hp hd (by omega)]
    rest := hr.rest.trans (blankOutput_emit p n owed s) }

/-- `k` run continuations in a row: `k` repetitions less are owed, and CUR stays (R111). -/
theorem steps_continueRun {k : Nat} : ∀ {s : State}, Lawful s → s.hostq = [] → s.phase = .decode →
    k ≤ s.run.toNat → s.pxcnt.toNat + k ≤ s.npix.toNat →
    ∃ t, steps k s = .next t ∧ Repeats s.prev k s t ∧ t.run.toNat + k = s.run.toNat ∧ t.cur = s.cur := by
  induction k with
  | zero => exact fun _ _ _ _ _ => ⟨_, rfl, .refl _ _, rfl, rfl⟩
  | succ k ih =>
    intro s h hq hp hrun howed
    have hd : s.pxcnt ≠ s.npix := fun he => by
      rw [he] at howed
      omega
    have hr : s.run ≠ 0 := fun he => by simp [he] at hrun
    have hstep : step s = .next (continueRun s) := step_of_run (.inl ⟨hq, rfl⟩) hp hd hr
    have he : Emits s.prev s (continueRun s) := emits_emit ..
    have hless : (continueRun s).run.toNat + 1 = s.run.toNat := by
      rw [continueRun_run]
      bv_omega
    have hleft : (continueRun s).pxcnt.toNat + k ≤ (continueRun s).npix.toNat := by
      rw [continueRun_npix, he.count_toNat h hp hd]
      omega
    obtain ⟨t, hsteps, hrep, htrun, htcur⟩ := ih (everyStepKeepsTheLaws s _ h hstep)
      ((continueRun_hostq s).trans hq) ((continueRun_phase s).trans hp) (by omega) hleft
    rw [continueRun_prev] at hrep
    rw [continueRun_cur] at htcur
    exact ⟨t, (steps_succ k hstep).trans hsteps, .cons h hp hd hrep, by omega, htcur⟩

/-- Settles O37: the step that fetches the RUN, and a continuation for each repetition after it. -/
theorem wholeRunInOneGo : Obligations.WholeRunInOneGo := by
  intro s b0 k h hq hp hd hrun hc hb hlo hhi hk
  have howed := h.pixel_owed hp hd
  obtain ⟨frun, hdec, hb0, -⟩ := decodeOpcode_run (b0 := b0) [] hlo hhi
  obtain ⟨k, rfl⟩ : ∃ m, k = m + 1 := ⟨k - 1, by omega⟩
  have hfetch : fetchBytes s s.cur (Instr.run frun).size = .ok [b0] := by simp [Instr.size, fetchBytes, hb]
  have hstep : step s = .next (emit s.prev (advance 1 frun s)) :=
    ((stepRunsTheDecodedInstruction s s _ _ (.inl ⟨hq, rfl⟩)).1 hp hd hrun hfetch hdec hc).trans (runOpcode_fits hc)
  have he : Emits s.prev s (emit s.prev (advance 1 frun s)) := emits_emit ..
  have hless : k ≤ (emit s.prev (advance 1 frun s)).run.toNat := by
    show k ≤ frun.toNat
    omega
  have hleft : (emit s.prev (advance 1 frun s)).pxcnt.toNat + k ≤ (emit s.prev (advance 1 frun s)).npix.toNat := by
    rw [emit_npix, advance_npix, he.count_toNat h hp hd]
    omega
  obtain ⟨t, hsteps, hrep, htrun, htcur⟩ := steps_continueRun (everyStepKeepsTheLaws s _ h hstep)
    ((emit_hostq ..).trans hq) ((emit_phase ..).trans hp) hless hleft
  replace htrun : t.run.toNat + k = frun.toNat := htrun
  have hall : Repeats s.prev (k + 1) s t := .cons h hp hd hrep
  have hsame {α : Type} (f : State → α) : f (blankOutput t) = f (blankOutput s) := congrArg f hall.rest
  exact ⟨t, (steps_succ k hstep).trans hsteps, (hsame State.phase).trans hp, htcur, hall.count, by omega,
    hall.prev rfl, fun j => by simpa using hall.cache j, hall.length, fun j hj a ha => ha ▸ hall.pixels j hj,
    hall.otherBytes, hsame State.err, hsame State.streamLen, hsame State.inMem, hsame State.magicValid,
    hsame State.width, hsame State.height, hsame State.channels, hsame State.colorspace, hsame State.npix,
    hsame State.outCap, hsame State.hostq, hsame State.reply, hsame State.lenWritten⟩

/-! ### Every decode ends -/

section Placed

variable {s : State} (hin : StreamPlaced s)
include hin

theorem StreamPlaced.memRead1_ne_none {a : Nat} (ha : a < s.streamLen) : memRead1 s a ≠ none := by
  rw [memRead1, if_pos (Nat.succ_le_of_lt ha)]
  exact Option.isSome_iff_ne_none.mp (hin a ha)

/-- With the stream placed a DECODE step answers a next state: the fetch finds every byte it asks for (R186). -/
theorem decodeStep_answers : ∃ t, decodeStep s = .next t := by
  unfold decodeStep
  split
  · exact ⟨_, rfl⟩
  split
  · exact ⟨_, rfl⟩
  rcases fetchAndRun_cases (rfl : fetchAndRun s = _) with ⟨_, ho⟩ | ⟨k, _, hk, hnone, _⟩ | ⟨_, _, _, _, ho⟩ |
    ⟨_, _, _, _, hf, _, _, hi, _, hs, ho⟩
  · exact ⟨_, ho⟩
  · exact absurd hnone (hin.memRead1_ne_none (hk.trans_le (Nat.sub_le ..)))
  · exact ⟨_, ho⟩
  · obtain ⟨p, owed, he, -⟩ := exec_fetched hi (hs ▸ hf)
    exact ⟨_, ho.trans he⟩

/-- With the stream placed and OUT unbounded a HEADER step answers a next state (R59, R186). -/
theorem headerStep_answers (hcap : s.outCap = none) : ∃ t, headerStep s = .next t := by
  rcases headerStep_cases (rfl : headerStep s = _) with ⟨_, ho⟩ | ⟨k, hl, hk, hnone, _⟩ |
    ⟨_, m, w, h, c, sp, _, _, _, ho⟩
  · exact ⟨_, ho⟩
  · exact absurd hnone (hin.memRead1_ne_none (by omega))
  · rw [ho]
    rcases execHdr_cases (rfl : execHdr m w h c sp s = _) with ⟨_, ho⟩ | ⟨_, _, ho⟩ | ⟨_, _, _, _, ho⟩ |
      ⟨_, _, _, hx, _⟩ | ⟨_, _, _, _, ho⟩
    · exact ⟨_, ho⟩
    · exact ⟨_, ho⟩
    · exact ⟨_, ho⟩
    · simp [hcap, exceedsCapacity] at hx
    · exact ⟨_, ho⟩

end Placed

section Ends

variable {s t : State}

/-- No move of the block takes a turn of the list (log entry 5). -/
theorem BlockMove.hostq_frame (h : BlockMove s t) : t.hostq = s.hostq := by
  cases h with
  | continueRun => exact emit_hostq ..
  | opcode => exact emit_hostq ..
  | stay | headerError | commit | finish | decodeError => rfl

theorem BlockMove.streamPlaced (h : BlockMove s t) (hin : StreamPlaced s) : StreamPlaced t := by
  rw [StreamPlaced, h.stream_frame.2, h.inMem_frame]
  exact hin

/-- A decode that has ended stays as it is (R157, R160). -/
theorem steps_of_ended (he : s.ended) (hq : s.hostq = []) (k : Nat) : steps k s = .next s := by
  have hstep : step s = .next s := noStepOutsideADecode s s (.inl ⟨hq, rfl⟩) (.inr he)
  induction k with
  | zero => rfl
  | succ k ih => exact (steps_succ k hstep).trans ih

/-- A DECODE step ends the decode or leaves one pixel less owed, so one step more than pixels are owed is enough (R118). -/
theorem steps_of_decode {n : Nat} : ∀ {s : State}, Lawful s → s.hostq = [] → s.phase = .decode → StreamPlaced s →
    s.npix.toNat = s.pxcnt.toNat + n →
    ∃ t, steps (n + 1) s = .next t ∧ t.ended ∧ t.hostq = [] ∧ t.npix = s.npix := by
  induction n with
  | zero =>
    intro s _ hq hp _ hn
    have hd : s.pxcnt = s.npix := BitVec.eq_of_toNat_eq hn.symm
    exact ⟨finish s, steps_succ 0 (step_of_complete (.inl ⟨hq, rfl⟩) hp hd), .inl rfl, hq, rfl⟩
  | succ n ih =>
    intro s h hq hp hin hn
    obtain ⟨t, ht⟩ := decodeStep_answers hin
    have hstep : step s = .next t := by rw [step_of_blockTurn (.inl ⟨hq, rfl⟩), blockStep, hp, ht]
    have hm := decodeStep_move hp ht
    have htq : t.hostq = [] := hm.hostq_frame.trans hq
    obtain ⟨-, -, -, -, -, hnpix⟩ := hm.sameHeader (by simp [hp])
    rcases hm.output_cases with ⟨-, -, hdone, -⟩ | ⟨-, -, herr, -⟩ | ⟨-, hpt, hd, p, he⟩
    · exact ⟨t, (steps_succ _ hstep).trans (steps_of_ended (.inl (hdone hp)) htq _), .inl (hdone hp), htq, hnpix⟩
    · exact ⟨t, (steps_succ _ hstep).trans (steps_of_ended (.inr herr) htq _), .inr herr, htq, hnpix⟩
    · obtain ⟨v, hsteps, hend, hvq, hvn⟩ := ih (everyStepKeepsTheLaws s t h hstep) htq hpt (hm.streamPlaced hin) (by
        rw [hnpix, he.count_toNat h hp hd]
        omega)
      exact ⟨v, (steps_succ _ hstep).trans hsteps, hend, hvq, hvn.trans hnpix⟩

end Ends

/-- Settles O38: one step for each pixel owed and one to finish. -/
theorem decodePhaseEnds : Obligations.DecodePhaseEnds := by
  intro s h hq hp hin
  obtain ⟨hle, -⟩ := h.accounting (.inl hp)
  obtain ⟨t, hsteps, hend, -⟩ := steps_of_decode h hq hp hin (n := s.npix.toNat - s.pxcnt.toNat) (by omega)
  exact ⟨t, hsteps, hend⟩

/-- A HEADER step ends the decode or begins its DECODE phase, so two steps more than pixels are enough (R118). -/
theorem steps_of_header {s : State} (h : Lawful s) (hq : s.hostq = []) (hp : s.phase = .header) (hin : StreamPlaced s)
    (hcap : s.outCap = none) :
    ∃ k t, steps k s = .next t ∧ t.ended ∧ t.hostq = [] ∧ k ≤ t.npix.toNat + 2 := by
  obtain ⟨t, ht⟩ := headerStep_answers hin hcap
  have hstep : step s = .next t := (step_of_header (.inl ⟨hq, rfl⟩) hp).trans ht
  have hm := headerStep_move hp ht
  have htq : t.hostq = [] := hm.hostq_frame.trans hq
  rcases headerStep_next ht with ⟨e, -, rfl⟩ | ⟨w, ht', c, sp, -, -, -, rfl⟩
  · exact ⟨1, _, steps_succ 0 hstep, .inr rfl, htq, by omega⟩
  · have hl := everyStepKeepsTheLaws s _ h hstep
    obtain ⟨hle, -⟩ := hl.accounting (.inl rfl)
    obtain ⟨v, hsteps, hend, hvq, hvn⟩ := steps_of_decode hl htq rfl (hm.streamPlaced hin) (Nat.add_sub_of_le hle).symm
    refine ⟨_, v, (steps_succ _ hstep).trans hsteps, hend, hvq, ?_⟩
    rw [hvn]
    omega

/-- Settles O39: START, the HEADER step, and the DECODE phase. -/
theorem wholeDecodeEnds : Obligations.WholeDecodeEnds := by
  intro s h hp hq hin hcap
  have hstep : step s = .next (startDecode (withTurns [] s)) := by
    rw [step_of_hostDoes ⟨[], hq, rfl⟩, hostStep, hostStart, withTurns_phase,
      (Phase.not_busy_iff_idle_or_ended _).mpr hp]
    rfl
  have hstarted : StreamPlaced (startDecode (withTurns [] s)) := hin
  obtain ⟨k, t, hsteps, hend, htq, hk⟩ :=
    steps_of_header (everyStepKeepsTheLaws s _ h hstep) rfl rfl hstarted hcap
  exact ⟨_, hstep, rfl, k, t, hsteps, hend, htq, by omega⟩

end Sys2Proof.Machine

/-! PROOFS. The literal opcodes: what an opcode does on each side of LIMIT, and the pixels of RGB and RGBA. -/

namespace Sys2Proof.Machine

/-! ### An opcode on each side of LIMIT -/

section Bound

variable {n : Nat} {p : Pixel} {owed : BitVec 6} {s : State}

/-- An opcode whose bytes end at or below LIMIT emits its pixel, moves CUR past them and leaves `owed` in RUN (R116). -/
theorem runOpcode_emits (h : s.cur + n ≤ s.limit) :
    ∃ t, runOpcode n p owed s = .next t ∧ Emits p s t ∧ t.cur = s.cur + n ∧ t.run = owed :=
  ⟨_, runOpcode_fits h, emits_emit .., by rw [emit_cur, advance_cur], by rw [emit_run, advance_run]⟩

/-- An opcode that reaches past LIMIT writes STATE, ERR and OUT_LEN and nothing else (R113, R155). -/
theorem runOpcode_fails (h : s.limit < s.cur + n) :
    runOpcode n p owed s = .next (failedWith .unexpectedEndOfStream s) := runOpcode_cut h

end Bound

/-! ### RGB and RGBA -/

/-- RGB is an opcode of 4 bytes that takes alpha from PREV (R125). -/
theorem exec_rgb (r g b : Byte) (s : State) :
    exec (.rgb r g b) s = runOpcode 4 ⟨r, g, b, s.prev.a⟩ s.run s := rfl

/-- RGBA is an opcode of 5 bytes whose pixel does not look at PREV (R126). -/
theorem exec_rgba (r g b a : Byte) (s : State) :
    exec (.rgba r g b a) s = runOpcode 5 ⟨r, g, b, a⟩ s.run s := rfl

/-- Settles O23: RGB is a 4-byte opcode, which emits below LIMIT and fails past it. -/
theorem rgbEmitsItsPixel : Obligations.RgbEmitsItsPixel := by
  intro s r g b
  rw [exec_rgb]
  exact ⟨rfl, runOpcode_emits, runOpcode_fails⟩

/-- Settles O24: RGBA is a 5-byte opcode, which emits below LIMIT and fails past it. -/
theorem rgbaEmitsItsPixel : Obligations.RgbaEmitsItsPixel := by
  intro s r g b a
  rw [exec_rgba]
  exact ⟨rfl, runOpcode_emits, runOpcode_fails⟩

end Sys2Proof.Machine

/-! PROOFS. The opcodes INDEX and RUN: the pixel each emits, and what INDEX of an empty slot does to the cache. -/

namespace Sys2Proof.Machine

/-- INDEX is an opcode of 1 byte whose pixel is the slot it names (R130). -/
theorem exec_index (idx : BitVec 6) (s : State) :
    exec (.index idx) s = runOpcode 1 (cacheRead s.cache idx) s.run s := rfl

/-- RUN is an opcode of 1 byte whose pixel is PREV and which leaves its field owed (R131). -/
theorem exec_run (frun : BitVec 6) (s : State) : exec (.run frun) s = runOpcode 1 s.prev frun s := rfl

/-- The byte of INDEX is worth its slot number (R76). -/
theorem encode_index (idx : BitVec 6) : ∃ b0, encode (.index idx) = [b0] ∧ b0.toNat = idx.toNat :=
  ⟨_, rfl, (toNat_tag_append 0b00#2 idx).trans (Nat.zero_add _)⟩

/-- Settles O25: INDEX is a 1-byte opcode, and the fetch bound leaves it its byte. -/
theorem indexEmitsTheSlot : Obligations.IndexEmitsTheSlot := by
  intro s idx
  rw [exec_index]
  exact ⟨encode_index idx, fun hcur => runOpcode_emits hcur⟩

/-- Settles O26: RUN is a 1-byte opcode, and the fetch bound leaves it its byte. -/
theorem runEmitsItsFirstPixel : Obligations.RunEmitsItsFirstPixel := by
  intro s frun hcur
  rw [exec_run]
  exact runOpcode_emits hcur

/-- An empty slot's pixel hashes to slot 0 (R130 corner case c). -/
theorem pixelHash_zero : pixelHash ⟨0, 0, 0, 0⟩ = 0 := rfl

/-- Settles O29: INDEX emits the zero pixel it finds in the slot, and Emit writes that pixel at its hash, slot 0. -/
theorem indexOfAnEmptySlot : Obligations.IndexOfAnEmptySlot := by
  intro s idx hcur hempty
  obtain ⟨t, ht, he, -⟩ := (indexEmitsTheSlot s idx).2 hcur
  rw [hempty] at he
  have hslot := he.slot
  have hothers := he.otherSlots
  rw [pixelHash_zero] at hslot hothers
  exact ⟨t, ht, he.prev, hslot, hothers⟩

end Sys2Proof.Machine

/-! PROOFS. The delta opcodes DIFF and LUMA: a wrapping sum as an integer and as a byte, and the pixel each emits. -/

namespace Sys2Proof.Machine

/-! ### The wrapping sum -/

/-- A channel plus a delta as an integer: the exact sum modulo 256 (R147). -/
theorem toNat_addDelta (c : Byte) (d : Int) : ((addDelta c d).toNat : Int) = ((c.toNat : Int) + d) % 256 := by
  rw [addDelta, BitVec.toNat_ofInt]
  exact Int.toNat_of_nonneg (Int.emod_nonneg _ (by decide))

/-- A channel plus a delta as a byte: the delta is added in 8 bits (R8). -/
theorem addDelta_eq_add (c : Byte) (d : Int) : addDelta c d = c + BitVec.ofInt 8 d := by
  rw [addDelta, BitVec.ofInt_add, BitVec.ofInt_natCast, BitVec.ofNat_toNat, BitVec.setWidth_eq]

/-- A field less its bias as a byte: the field widened, plus the bias negated in 8 bits. -/
theorem ofInt_field_sub {w : Nat} (f : BitVec w) (bias : Int) :
    BitVec.ofInt 8 ((f.toNat : Int) - bias) = f.setWidth 8 + BitVec.ofInt 8 (-bias) := by
  rw [Int.sub_eq_add_neg, BitVec.ofInt_add, BitVec.ofInt_natCast, BitVec.ofNat_toNat]

/-! ### The deltas in unsigned bytes: −2, −32 and −8 − 32 are 254, 224 and 216 modulo 256 -/

/-- A DIFF channel in unsigned bytes (R135). -/
theorem addDelta_diffDelta (c : Byte) (f : BitVec 2) : addDelta c (diffDelta f) = c + f.setWidth 8 + 254 := by
  rw [addDelta_eq_add, diffDelta, ofInt_field_sub, ← BitVec.add_assoc]
  rfl

/-- The green channel of LUMA in unsigned bytes (R136). -/
theorem addDelta_lumaGreenDelta (c : Byte) (fdg : BitVec 6) :
    addDelta c (lumaGreenDelta fdg) = c + fdg.setWidth 8 + 224 := by
  rw [addDelta_eq_add, lumaGreenDelta, ofInt_field_sub, ← BitVec.add_assoc]
  rfl

/-- The two biases of a red or blue delta of LUMA taken together. -/
theorem lumaDelta_eq_add_sub (fdg : BitVec 6) (f : BitVec 4) :
    lumaDelta fdg f = (f.toNat : Int) + ((fdg.toNat : Int) - 40) := by
  rw [lumaDelta, lumaGreenDelta, Config.lumaNibbleBias, Config.lumaGreenBias]
  omega

/-- A red or blue channel of LUMA in unsigned bytes (R136). -/
theorem addDelta_lumaDelta (c : Byte) (fdg : BitVec 6) (f : BitVec 4) :
    addDelta c (lumaDelta fdg f) = c + f.setWidth 8 + fdg.setWidth 8 + 216 := by
  rw [addDelta_eq_add, lumaDelta_eq_add_sub, BitVec.ofInt_add, ofInt_field_sub, BitVec.ofInt_natCast,
    BitVec.ofNat_toNat, ← BitVec.add_assoc, ← BitVec.add_assoc]
  rfl

/-- Settles O11, lane by lane. -/
theorem deltasInUnsignedBytes : Obligations.DeltasInUnsignedBytes := by
  intro prev fr fg fb fdg frg fbg
  constructor
  · rw [diffPixel, addDelta_diffDelta, addDelta_diffDelta, addDelta_diffDelta]
  · rw [lumaPixel, addDelta_lumaDelta, addDelta_lumaGreenDelta, addDelta_lumaDelta]

/-! ### DIFF and LUMA -/

/-- DIFF is an opcode of 1 byte (R135). -/
theorem exec_diff (fr fg fb : BitVec 2) (s : State) :
    exec (.diff fr fg fb) s = runOpcode 1 (diffPixel fr fg fb s.prev) s.run s := rfl

/-- LUMA is an opcode of 2 bytes (R136). -/
theorem exec_luma (fdg : BitVec 6) (frg fbg : BitVec 4) (s : State) :
    exec (.luma fdg frg fbg) s = runOpcode 2 (lumaPixel fdg frg fbg s.prev) s.run s := rfl

/-- The byte of DIFF in numbers (R77). -/
theorem encode_diff (fr fg fb : BitVec 2) :
    ∃ b0, encode (.diff fr fg fb) = [b0] ∧ b0.toNat = 0x40 + fr.toNat * 16 + fg.toNat * 4 + fb.toNat :=
  ⟨_, rfl, toNat_tag_append_three 0b01#2 fr fg fb⟩

/-- The two bytes of LUMA in numbers (R78). -/
theorem encode_luma (fdg : BitVec 6) (frg fbg : BitVec 4) :
    ∃ b0 b1, encode (.luma fdg frg fbg) = [b0, b1] ∧ b0.toNat = 0x80 + fdg.toNat ∧
      b1.toNat = frg.toNat * 16 + fbg.toNat :=
  ⟨_, _, rfl, toNat_tag_append 0b10#2 fdg, toNat_nibble_append frg fbg⟩

/-- Settles O27: DIFF is a 1-byte opcode, the fetch bound leaves it its byte, and its sums are those of `addDelta`. -/
theorem diffEmitsTheSums : Obligations.DiffEmitsTheSums := by
  intro s fr fg fb
  rw [exec_diff]
  refine ⟨encode_diff fr fg fb, fun hcur => ?_⟩
  obtain ⟨t, ht, he, hc, hr⟩ := runOpcode_emits (n := 1) (p := diffPixel fr fg fb s.prev) (owed := s.run) (s := s) hcur
  exact ⟨t, _, ht, he, hc, hr, toNat_addDelta .., toNat_addDelta .., toNat_addDelta .., rfl⟩

/-- Settles O28: LUMA is a 2-byte opcode, which emits below LIMIT, with the sums of `addDelta`, and fails past it. -/
theorem lumaEmitsTheSums : Obligations.LumaEmitsTheSums := by
  intro s fdg frg fbg
  rw [exec_luma]
  refine ⟨encode_luma fdg frg fbg, fun hcur => ?_, runOpcode_fails⟩
  obtain ⟨t, ht, he, hc, hr⟩ := runOpcode_emits (p := lumaPixel fdg frg fbg s.prev) (owed := s.run) hcur
  exact ⟨t, _, ht, he, hc, hr, toNat_addDelta .., toNat_addDelta .., toNat_addDelta .., rfl⟩

end Sys2Proof.Machine

/-! PROOFS. Emit: the hash in any width, the sums that wrap, and the image a complete decode leaves in OUT. -/

namespace Sys2Proof.Machine

/-! ### The hash -/

/-- The hash as a number (R140). -/
theorem toNat_pixelHash (p : Pixel) :
    (pixelHash p).toNat = (p.r.toNat * 3 + p.g.toNat * 5 + p.b.toNat * 7 + p.a.toNat * 11) % 64 :=
  BitVec.toNat_ofNat ..

section AnyWidth

variable {w : Nat} (hw : 6 ≤ w)
include hw

/-- A channel's share of the hash: 2^6 divides 2^w, so the low 6 bits of a product that wraps in `w` bits are those of
the exact one. -/
theorem setWidth_channel_mul (c : Byte) (k : Nat) :
    (c.setWidth w * BitVec.ofNat w k).setWidth 6 = BitVec.ofNat 6 (c.toNat * k) := by
  rw [BitVec.setWidth_mul _ _ hw, BitVec.setWidth_setWidth_of_le _ hw, BitVec.setWidth_ofNat_of_le hw, BitVec.ofNat_mul,
    BitVec.ofNat_toNat]

/-- The sum of the four shares likewise (R140). -/
theorem setWidth_hash_sum (p : Pixel) :
    (p.r.setWidth w * 3 + p.g.setWidth w * 5 + p.b.setWidth w * 7 + p.a.setWidth w * 11).setWidth 6 = pixelHash p := by
  rw [BitVec.setWidth_add _ _ hw, BitVec.setWidth_add _ _ hw, BitVec.setWidth_add _ _ hw]
  simp only [BitVec.ofNat_eq_ofNat, setWidth_channel_mul hw, pixelHash, BitVec.ofNat_add]

end AnyWidth

/-- Settles O9: the exact sum modulo 64, and the low 6 bits of the sum that wraps. -/
theorem hashInAnyWidth : Obligations.HashInAnyWidth :=
  fun p => ⟨toNat_pixelHash p, fun _ hw => (setWidth_hash_sum hw p).symm⟩

/-! ### The sums of a channel and a delta -/

/-- Settles O10: a delta is added modulo 256, whatever its sign. -/
theorem channelSumsWrap : Obligations.ChannelSumsWrap := toNat_addDelta

/-! ### The image of a complete decode -/

/-- In DONE every pixel of the header's image was emitted, CHANNELS bytes each (R146). -/
theorem Lawful.outLen_of_done {s : State} (h : Lawful s) (hp : s.phase = .done) :
    s.outLen.toNat = s.width.toNat * s.height.toNat * s.channels.toNat := by
  obtain ⟨-, -, hnpix, -⟩ := h.headerParsed (.inr hp)
  obtain ⟨-, hlen, -⟩ := h.accounting (.inr hp)
  rw [hlen, h.doneComplete hp, hnpix]

/-- Where every address below `n` holds a value, the reads of all of them are a list of `n` bytes. -/
theorem Memory.exists_bytes_of_isSome {m : Memory} {n : Nat} (h : ∀ a, a < n → (Memory.read m a).isSome = true) :
    ∃ bytes : List Byte, bytes.length = n ∧ (List.range n).map (fun a => Memory.read m a) = bytes.map some := by
  refine ⟨(List.range n).map fun a => (Memory.read m a).getD 0, by simp, ?_⟩
  rw [List.map_map]
  refine List.map_congr_left fun a ha => ?_
  have hread : Memory.read m a ≠ none := Option.isSome_iff_ne_none.mp (h a (List.mem_range.mp ha))
  exact (Option.getD_of_ne_none hread 0).symm

theorem result_of_done {s : State} (hp : s.phase = .done) :
    result s = some (.ok s.width s.height s.channels s.colorspace
      ((List.range s.outLen.toNat).map fun a => Memory.read s.outMem a)) := by
  rw [result, hp]

/-- Settles O52: OUT_LEN is the size of the image, and every byte below it is there. -/
theorem doneHoldsTheWholeImage : Obligations.DoneHoldsTheWholeImage := by
  intro s h hp
  obtain ⟨-, -, hpresent⟩ := h.accounting (.inr hp)
  obtain ⟨bytes, hlength, hread⟩ := Memory.exists_bytes_of_isSome hpresent
  exact ⟨bytes, hlength.trans (h.outLen_of_done hp), by rw [result_of_done hp, hread]⟩

end Sys2Proof.Machine

/-! PROOFS. The errors: where each comes from, what its step writes, and what stands until the next START. -/

namespace Sys2Proof.Machine

/-! ### The step into ERROR -/

/-- The kinds of error each phase can raise (R150). -/
def RaisedIn (p : Phase) (e : FormatError) : Prop :=
  (p = .header ∧ e ≠ .unexpectedEndOfStream) ∨ (p = .decode ∧ e = .unexpectedEndOfStream)

section IntoError

variable {s t : State}

/-- The only moves into ERROR are the checks of the HEADER step and the two bounds of the DECODE step (R150). -/
theorem BlockMove.raises (h : BlockMove s t) (hs : s.phase ≠ .error) (ht : t.phase = .error) :
    ∃ e, t = raise e s ∧ RaisedIn s.phase e := by
  cases h with
  | stay => exact absurd ht hs
  | headerError e hp he => exact ⟨e, rfl, .inl ⟨hp, he⟩⟩
  | decodeError hp => exact ⟨_, rfl, .inr ⟨hp, rfl⟩⟩
  | commit | finish => cases ht
  | continueRun | opcode => exact absurd ((emit_phase ..).symm.trans ht) hs

/-- Nothing the host does leads into ERROR. -/
theorem hostStep_keeps_out_of_error {a : HostAction} (h : hostStep a s = .next t) (hs : s.phase ≠ .error) :
    t.phase ≠ .error := by
  by_cases hr : a = .reset
  · subst hr
    cases h
    nofun
  · rcases (hostStep_output h hr).2 with ⟨-, hp⟩ | ⟨-, -, hp⟩
    · exact hp ▸ hs
    · simp [hp]

/-- A step into ERROR is a turn of the block that raises, with the kind its phase allows (R150, R155). -/
theorem step_into_error (h : step s = .next t) (hs : s.phase ≠ .error) (ht : t.phase = .error) :
    ∃ u e, BlockTurn s u ∧ t = raise e u ∧ RaisedIn s.phase e := by
  rcases step_next h with ⟨u, hu, hb⟩ | ⟨a, u, hu, ha⟩
  · obtain ⟨q, rfl⟩ := hu.eq_withTurns
    obtain ⟨e, he, hphase⟩ := (blockStep_move hb).raises hs ht
    exact ⟨_, e, hu, he, hphase⟩
  · obtain ⟨q, rfl⟩ := hu.eq_withTurns
    exact absurd ht (hostStep_keeps_out_of_error ha hs)

end IntoError

/-- Settles O44: the step is `raise`. -/
theorem errorsArePrecise : Obligations.ErrorsArePrecise := by
  intro s t h hs ht
  obtain ⟨u, e, hu, he, -⟩ := step_into_error h hs ht
  exact ⟨u, e, hu, he⟩

/-- Settles O45: HEADER raises every kind but the one of DECODE. -/
theorem errorsByPhase : Obligations.ErrorsByPhase := by
  intro s t h hs ht
  obtain ⟨u, e, -, rfl, ⟨hp, he⟩ | ⟨hp, rfl⟩⟩ := step_into_error h hs ht
  · refine .inl ⟨hp, ?_⟩
    cases e with
    | truncated => exact .inl rfl
    | badMagic => exact .inr (.inl rfl)
    | invalidChannelCount => exact .inr (.inr rfl)
    | unexpectedEndOfStream => exact absurd rfl he
  · exact .inr ⟨hp, rfl⟩

/-! ### UnexpectedEndOfStream -/

/-- No opcode or no whole opcode is left below LIMIT: the fetch bound or the operand bound fails (R112, R113). -/
def BoundFails (s : State) : Prop :=
  s.limit ≤ s.cur ∨ ∃ b0, memRead1 s s.cur = some b0 ∧ s.limit < s.cur + oplen b0

section UnexpectedEnd

variable {s t u : State}

/-- A fetch into ERROR failed a bound: an opcode that is executed emits its pixel. -/
theorem boundFails_of_fetchAndRun_error (h : fetchAndRun s = .next t) (hs : s.phase ≠ .error)
    (ht : t.phase = .error) : BoundFails s := by
  rcases fetchAndRun_cases h with ⟨hc, _⟩ | ⟨_, _, _, _, ho⟩ | ⟨b0, _, hb, hx, _⟩ |
    ⟨b0, _, i, _, hf, _, _, hi, _, hsz, ho⟩
  · exact .inl hc
  · cases ho
  · exact .inr ⟨b0, hb, hx⟩
  · obtain ⟨p, owed, he, -⟩ := exec_fetched hi (hsz ▸ hf)
    rw [he] at ho
    cases ho
    exact absurd ht hs

/-- A DECODE step into ERROR had pixels owed and no run in progress, and its fetch failed a bound (R117, R154). -/
theorem boundFails_of_decode_error (hu : BlockTurn s u) (hp : s.phase = .decode) (h : step s = .next t)
    (ht : t.phase = .error) :
    s.pxcnt ≠ s.npix ∧ s.run = 0 ∧ BoundFails s := by
  obtain ⟨q, hq⟩ := hu.eq_withTurns
  have hup : u.phase ≠ .error := by simp [hq, hp]
  have hd : s.pxcnt ≠ s.npix := fun hd => by
    rw [step_of_complete hu hp hd] at h
    cases h
    cases ht
  have hr : s.run = 0 := by
    by_contra hr
    rw [step_of_run hu hp hd hr] at h
    cases h
    exact hup ht
  refine ⟨hd, hr, ?_⟩
  rw [step_of_fetch hu hp hd hr] at h
  have hbound := boundFails_of_fetchAndRun_error h hup ht
  rw [hq] at hbound
  exact hbound

end UnexpectedEnd

/-- Settles O36: the bounds are what a DECODE step into ERROR failed, and a step that fails one raises; a HEADER step
into ERROR has another kind. -/
theorem unexpectedEndExactly : Obligations.UnexpectedEndExactly := by
  intro s u hu
  refine ⟨fun hp hle => ⟨fun h => ?_, fun ⟨hlt, hr, hbound⟩ => ?_⟩, fun hp h => ?_⟩
  · obtain ⟨hd, hr, hbound⟩ := boundFails_of_decode_error hu hp h rfl
    exact ⟨hle.lt_of_ne fun he => hd (BitVec.eq_of_toNat_eq he), hr, hbound⟩
  · have hd : s.pxcnt ≠ s.npix := fun he => absurd hlt (by simp [he])
    rcases le_or_gt s.limit s.cur with hc | hc
    · exact fetchBoundRaises s u hu hp hd hr hc
    · obtain ⟨b0, hb, hx⟩ := hbound.resolve_left (Nat.not_le.mpr hc)
      exact operandBoundRaises s u b0 hu hp hd hr hc hb hx
  · rcases errorsByPhase s _ h (by simp [hp]) rfl with ⟨-, he | he | he⟩ | ⟨hdec, -⟩
    · cases he
    · cases he
    · cases he
    · simp [hp] at hdec

/-! ### A result stays -/

/-- START and hardware reset aside, nothing the host does changes a result. -/
theorem hostStep_result {a : HostAction} {s t : State} (h : hostStep a s = .next t) (hr : a ≠ .reset)
    (hs : a ≠ .start) : result t = result s := by
  rcases hostStep_next h with ⟨ha, _⟩ | ⟨ha, _⟩ | ⟨ha, _⟩ | ⟨_, _, _, _, rfl⟩ | ⟨_, _, _, rfl⟩ | ⟨_, _, _, rfl⟩ |
    ⟨_, _, _, rfl⟩
  · exact absurd ha hr
  · exact absurd ha hs
  · exact absurd ha hs
  all_goals rfl

/-- Settles O46: the block has no step left, and of the host's actions reset and START alone touch the result. -/
theorem resultsStayUntilStart : Obligations.ResultsStayUntilStart := by
  intro s t h hend
  rcases step_next h with ⟨u, hu, -⟩ | ⟨a, u, hu, ha⟩
  · rw [noStepOutsideADecode s u hu (.inr hend)] at h
    cases h
    obtain ⟨q, rfl⟩ := hu.eq_withTurns
    exact .inl ⟨rfl, rfl⟩
  · by_cases hr : a = .reset
    · subst hr
      cases ha
      exact .inr (.inr ⟨u, hu, rfl⟩)
    by_cases hs : a = .start
    · subst hs
      rcases hostStart_next ha with ⟨-, rfl⟩ | ⟨hb, -⟩
      · exact .inr (.inl ⟨u, hu, rfl, rfl⟩)
      · obtain ⟨q, rfl⟩ := hu.eq_withTurns
        have hidle : s.phase.busy = false := (Phase.not_busy_iff_idle_or_ended _).mpr (.inr hend)
        simp [hidle] at hb
    · have hresult := hostStep_result ha hr hs
      have hphase := hostStep_phase ha hr hs
      obtain ⟨q, rfl⟩ := hu.eq_withTurns
      exact .inl ⟨hresult, hphase⟩

/-! ### No other stop -/

/-- With the stream placed and OUT unbounded every step of the block answers a next state (R172). -/
theorem blockStep_answers {s : State} (hin : StreamPlaced s) (hcap : s.outCap = none) : ∃ t, blockStep s = .next t := by
  cases hp : s.phase with
  | header =>
    rw [blockStep, hp]
    exact headerStep_answers hin hcap
  | decode =>
    rw [blockStep, hp]
    exact decodeStep_answers hin
  | idle | done | error => exact ⟨s, blockStep_of_not_busy (by rw [hp]; rfl)⟩

/-- Settles O51: a turn of the block is a step of the block on the same stream. -/
theorem placedStreamNeverStops : Obligations.PlacedStreamNeverStops := by
  intro s u _ hu hin hcap
  rw [step_of_blockTurn hu]
  obtain ⟨q, rfl⟩ := hu.eq_withTurns
  exact blockStep_answers hin hcap

/-! ### What the host sees after an error -/

theorem result_of_error {s : State} {e : FormatError} (hp : s.phase = .error) (he : s.err = some e) :
    result s = some (.failed e) := by
  rw [result, hp, he]
  rfl

/-- Settles O59: the three registers with access hold the phase, the kind and 0; in ERROR no other read has access, and
none is refused. -/
theorem errorShowsTheKindAlone : Obligations.ErrorShowsTheKindAlone := by
  intro s hs hp
  obtain ⟨e, he⟩ := Option.ne_none_iff_exists'.mp (hs.errExactlyInError.mpr hp)
  have hidle : ¬ s.phase.busy = true := by simp [hp, Phase.busy]
  refine ⟨e, he, result_of_error hp he, fun u => ?_⟩
  obtain ⟨hstate, herr, -, -, hlen⟩ := hostReadsTheValues s u
  refine ⟨hstate 4 (by simp [hp]), fun n hn => herr n (.inr (by simpa [he] using hn)), fun hu => ?_,
    fun r hrs hre hrl hu => ?_, fun k hu => ?_⟩
  · rw [hlen (.inr hp) hu, hs.errorEmpty hp]
    rfl
  · have hno : ¬ hostMayRead s r = true := by simp [hostMayRead_iff, hp, hrs, hre, hrl]
    rw [step_readReg_of_not_mayRead hu hno, if_neg fun hx => hidle hx.1]
  · rw [step_readOut_elsewhere hu (by simp [hp]), if_neg hidle]

end Sys2Proof.Machine

/-! PROOFS. Reset and hazards: what START and hardware reset do, the INDEX after a pixel, and a decode that does not
depend on what came before it. -/

namespace Sys2Proof.Machine

/-! ### Hardware reset and START -/

/-- Settles O12: hardware reset puts STATE and ERR at the values of the reset state. -/
theorem resetGivesIdleWithoutError : Obligations.ResetGivesIdleWithoutError :=
  ⟨rfl, rfl, fun _ _ hu => ⟨_, step_of_hostDoes hu, hardReset_phase _, hardReset_err _⟩⟩

/-- The START step: taken outside HEADER and DECODE (R182), ignored there (R183). -/
theorem step_start {s u : State} (hu : HostDoes .start s u) :
    step s = .next (if s.phase.busy then u else startDecode u) := by
  obtain ⟨q, rfl⟩ := hu.eq_withTurns
  exact step_of_hostDoes hu

/-- Settles O14: the START step answers the initial state of a decode, every slot of the cache at the zero pixel. -/
theorem startWritesInitialState : Obligations.StartWritesInitialState := by
  intro s u hu hp
  have hidle : ¬ s.phase.busy = true := by simp [(Phase.not_busy_iff_idle_or_ended _).mpr hp]
  have hstep : step s = .next (startDecode u) := by rw [step_start hu, if_neg hidle]
  exact ⟨startDecode u, hstep, rfl, rfl, rfl, rfl, rfl, rfl, rfl, rfl, rfl, rfl, rfl, rfl, rfl, cacheRead_cacheInit,
    rfl, rfl⟩

/-- Settles O15: in both busy phases START is ignored. -/
theorem startIgnoredWhileBusy : Obligations.StartIgnoredWhileBusy := by
  intro s u hu hp
  rw [step_start hu, if_pos ((Phase.busy_iff _).mpr hp)]

/-! ### The INDEX after a pixel -/

/-- Writing a slot the pixel it holds changes no slot: an emission of a pixel that is in its slot leaves the cache. -/
theorem Emits.cacheRead_of_cached {p : Pixel} {s t : State} (he : Emits p s t)
    (hp : cacheRead s.cache (pixelHash p) = p) (j : BitVec 6) : cacheRead t.cache j = cacheRead s.cache j := by
  by_cases hj : j = pixelHash p
  · rw [hj, he.slot, hp]
  · exact he.otherSlots j hj

/-- Settles O30: the opcode leaves its pixel in PREV and in its slot, so INDEX finds it there and writes it again. -/
theorem indexSeesThePixelBefore : Obligations.IndexSeesThePixelBefore := by
  intro s t i hi hcur ht
  obtain ⟨p, owed, he, -⟩ := exec_fetched hi (Nat.le_of_lt hcur)
  obtain rfl : emit p (advance i.size owed s) = t := by simpa [he] using ht
  have hslot := (emits_emit p s i.size owed).slot
  obtain ⟨t', ht', he', hc', hr'⟩ := (indexEmitsTheSlot (emit p (advance i.size owed s)) (pixelHash p)).2 hcur
  rw [hslot] at he'
  exact ⟨t', ht', he', hc', hr', he'.cacheRead_of_cached hslot⟩

/-! ### A decode depends on the stream alone -/

/-- A state with other values of all that a decode does not write before it reads: IN and OUT, of which it reads the
stream and what it has appended, and two fields it never reads. -/
def withSurroundings (m o : Memory) (r : Option Nat) (l : Bool) (s : State) : State :=
  { s with inMem := m, outMem := o, reply := r, lenWritten := l }

section Surroundings

variable (m o : Memory) (r : Option Nat) (l : Bool) (s : State)

@[simp] theorem withSurroundings_phase : (withSurroundings m o r l s).phase = s.phase := rfl
@[simp] theorem withSurroundings_streamLen : (withSurroundings m o r l s).streamLen = s.streamLen := rfl
@[simp] theorem withSurroundings_cur : (withSurroundings m o r l s).cur = s.cur := rfl
@[simp] theorem withSurroundings_channels : (withSurroundings m o r l s).channels = s.channels := rfl
@[simp] theorem withSurroundings_outLen : (withSurroundings m o r l s).outLen = s.outLen := rfl
@[simp] theorem withSurroundings_hostq : (withSurroundings m o r l s).hostq = s.hostq := rfl

theorem emit_withSurroundings (p : Pixel) :
    emit p (withSurroundings m o r l s) =
      withSurroundings m (appendPixel p (withSurroundings m o r l s)).outMem r l (emit p s) := rfl

end Surroundings

/-- Two states in the same place of the same decode, the block alone: all registers agree, IN below STREAM_LEN, and OUT
below OUT_LEN. -/
inductive SameDecode (s : State) : State → Prop where
  | mk (m o : Memory) (r : Option Nat) (l : Bool) (turns : s.hostq = [])
      (stream : ∀ a, a < s.streamLen → Memory.read m a = Memory.read s.inMem a)
      (output : ∀ a, a < s.outLen.toNat → Memory.read o a = Memory.read s.outMem a) :
      SameDecode s (withSurroundings m o r l s)

/-- Two outcomes that are the same but for what `SameDecode` leaves free. -/
inductive SameOutcome : Host.Outcome State Fault Refusal → Host.Outcome State Fault Refusal → Prop where
  | next {s t : State} (h : SameDecode s t) : SameOutcome (.next s) (.next t)
  | fault (f : Fault) : SameOutcome (.fault f) (.fault f)
  | refused (r : Refusal) : SameOutcome (.refused r) (.refused r)

theorem SameOutcome.ite {c : Prop} [Decidable c] {x x' y y' : Host.Outcome State Fault Refusal}
    (hx : SameOutcome x x') (hy : SameOutcome y y') : SameOutcome (if c then x else y) (if c then x' else y') := by
  by_cases hc : c
  · rwa [if_pos hc, if_pos hc]
  · rwa [if_neg hc, if_neg hc]

/-- What a decode has appended reads the same after one more pixel: a byte below the new OUT_LEN is below the old one
or one of the pixel's own. -/
theorem read_appendPixel_withSurroundings {m o : Memory} {r : Option Nat} {l : Bool} {s : State}
    (output : ∀ a, a < s.outLen.toNat → Memory.read o a = Memory.read s.outMem a) (p : Pixel) {a : Nat}
    (ha : a < (appendPixel p s).outLen.toNat) :
    Memory.read (appendPixel p (withSurroundings m o r l s)).outMem a = Memory.read (appendPixel p s).outMem a := by
  rw [appendPixel_read, appendPixel_read, withSurroundings_channels, withSurroundings_outLen]
  refine ite_congr rfl (fun _ => rfl) fun h3 => ite_congr rfl (fun _ => rfl) fun h2 =>
    ite_congr rfl (fun _ => rfl) fun h1 => ite_congr rfl (fun _ => rfl) fun h0 => output a ?_
  rw [appendPixel_outLen] at ha
  split at ha
  next h4 =>
    have hne : a ≠ (s.outLen + 3).toNat := fun he => h3 ⟨h4, he⟩
    bv_omega
  next => bv_omega

section SameDecode

variable {s t : State} (h : SameDecode s t)
include h

theorem raise_sameDecode (e : FormatError) : SameDecode (raise e s) (raise e t) := by
  obtain ⟨m, o, r, l, turns, stream, _⟩ := h
  exact .mk m o r l turns stream nofun

theorem commitHeader_sameDecode (w ht : BitVec 32) (c sp : Byte) :
    SameDecode (commitHeader w ht c sp s) (commitHeader w ht c sp t) := by
  obtain ⟨m, o, r, l, turns, stream, output⟩ := h
  exact .mk m o r l turns stream output

theorem finish_sameDecode : SameDecode (finish s) (finish t) := by
  obtain ⟨m, o, r, l, turns, stream, output⟩ := h
  exact .mk m o r l turns stream output

theorem advance_sameDecode (n : Nat) (owed : BitVec 6) : SameDecode (advance n owed s) (advance n owed t) := by
  obtain ⟨m, o, r, l, turns, stream, output⟩ := h
  exact .mk m o r l turns stream output

theorem emit_sameDecode (p : Pixel) : SameDecode (emit p s) (emit p t) := by
  obtain ⟨m, o, r, l, turns, stream, output⟩ := h
  rw [emit_withSurroundings]
  exact .mk m _ r l turns stream fun a ha => read_appendPixel_withSurroundings output p ha

theorem runOpcode_sameDecode (n : Nat) (p : Pixel) (owed : BitVec 6) :
    SameOutcome (runOpcode n p owed s) (runOpcode n p owed t) := by
  have hraise := raise_sameDecode h .unexpectedEndOfStream
  have hemit := emit_sameDecode (advance_sameDecode h n owed) p
  obtain ⟨m, o, r, l, -, -, -⟩ := h
  exact .ite (.next hraise) (.next hemit)

theorem execHdr_sameDecode (g w ht : BitVec 32) (c sp : Byte) :
    SameOutcome (execHdr g w ht c sp s) (execHdr g w ht c sp t) := by
  have hraise (e : FormatError) : SameOutcome (.next (raise e s)) (.next (raise e t)) := .next (raise_sameDecode h e)
  have hcommit := commitHeader_sameDecode h w ht c sp
  obtain ⟨m, o, r, l, -, -, -⟩ := h
  exact .ite (hraise _) (.ite (hraise _) (.ite (hraise _) (.ite (.refused _) (.next hcommit))))

theorem exec_sameDecode (i : Instr) : SameOutcome (exec i s) (exec i t) := by
  cases i with
  | hdr => exact execHdr_sameDecode h ..
  | rgb | rgba | run | index | diff | luma =>
    have hrun := runOpcode_sameDecode h
    obtain ⟨m, o, r, l, -, -, -⟩ := h
    exact hrun ..

theorem memRead1_sameDecode (a : Nat) : memRead1 t a = memRead1 s a := by
  obtain ⟨m, o, r, l, -, stream, -⟩ := h
  exact memRead1_congr (withSurroundings_streamLen m o r l s) stream a

theorem fetchBytes_sameDecode (a n : Nat) : fetchBytes t a n = fetchBytes s a n :=
  fetchBytes_congr fun k _ _ => memRead1_sameDecode h k

/-- The HEADER step fetches the same bytes and runs the same record. -/
theorem headerStep_sameDecode : SameOutcome (headerStep s) (headerStep t) := by
  have hraise := SameOutcome.next (raise_sameDecode h .truncated)
  have hexec := exec_sameDecode h
  have hfetch := fetchBytes_sameDecode h 0 14
  obtain ⟨m, o, r, l, -, -, -⟩ := h
  refine .ite hraise ?_
  rw [Config.headerLen, hfetch]
  cases fetchBytes s 0 14 with
  | error a => exact .fault _
  | ok bytes =>
    simp only
    cases decode .header bytes with
    | error => exact hraise
    | ok x => exact hexec x.1

/-- The fetch of DECODE finds the same bytes and runs the same opcode. -/
theorem fetchAndRun_sameDecode : SameOutcome (fetchAndRun s) (fetchAndRun t) := by
  have hraise := SameOutcome.next (raise_sameDecode h .unexpectedEndOfStream)
  have hexec := exec_sameDecode h
  have hread := memRead1_sameDecode h s.cur
  have hfetch := fetchBytes_sameDecode h s.cur
  obtain ⟨m, o, r, l, -, -, -⟩ := h
  refine .ite hraise ?_
  rw [withSurroundings_cur, hread]
  cases memRead1 s s.cur with
  | none => exact .fault _
  | some b0 =>
    refine .ite hraise ?_
    rw [hfetch]
    cases fetchBytes s s.cur (oplen b0) with
    | error => exact .fault _
    | ok bytes =>
      simp only
      cases decode .opcode bytes with
      | error => exact hraise
      | ok x => exact hexec x.1

theorem decodeStep_sameDecode : SameOutcome (decodeStep s) (decodeStep t) := by
  have hfinish := finish_sameDecode h
  have hrun := emit_sameDecode (advance_sameDecode h 0 (s.run - 1)) s.prev
  have hfetch := fetchAndRun_sameDecode h
  obtain ⟨m, o, r, l, -, -, -⟩ := h
  exact .ite (.next hfinish) (.ite (.next hrun) hfetch)

/-- With the host out of the way a step is a step of the block, and the two go the same way. -/
theorem step_sameDecode : SameOutcome (step s) (step t) := by
  have hheader := headerStep_sameDecode h
  have hdecode := decodeStep_sameDecode h
  have hstay := SameOutcome.next h
  obtain ⟨m, o, r, l, turns, -, -⟩ := h
  have turns' := (withSurroundings_hostq m o r l s).trans turns
  rw [step_of_blockTurn (.inl ⟨turns, rfl⟩), step_of_blockTurn (.inl ⟨turns', rfl⟩), blockStep, blockStep,
    withSurroundings_phase]
  cases s.phase with
  | header => exact hheader
  | decode => exact hdecode
  | idle | done | error => exact hstay

end SameDecode

/-- A run stops where a step answers no next state. -/
theorem steps_of_stop {s : State} (k : Nat) (h : ∀ t, step s ≠ .next t) : steps (k + 1) s = step s := by
  have hcore : Sys2Proof.core.step s = step s := rfl
  simp only [steps, Host.Core.run, hcore]
  cases hs : step s with
  | next t => exact absurd hs (h t)
  | fault | refused => rfl

/-- Two states in the same place of the same decode stay so for any number of steps. -/
theorem steps_sameDecode (k : Nat) : ∀ {s t : State}, SameDecode s t → SameOutcome (steps k s) (steps k t) := by
  induction k with
  | zero => exact fun h => .next h
  | succ k ih =>
    intro s t h
    have hstep := step_sameDecode h
    generalize hs : step s = x, ht : step t = y at hstep
    cases hstep with
    | next h' =>
      rw [steps_succ k hs, steps_succ k ht]
      exact ih h'
    | fault | refused =>
      rw [steps_of_stop k (by simp [hs]), steps_of_stop k (by simp [ht]), hs, ht]
      constructor

/-- The result is read from the registers and from OUT below OUT_LEN. -/
theorem result_sameDecode {s t : State} (h : SameDecode s t) : result t = result s := by
  obtain ⟨m, o, r, l, -, -, output⟩ := h
  have hbytes : (List.range s.outLen.toNat).map (fun a => Memory.read o a) =
      (List.range s.outLen.toNat).map fun a => Memory.read s.outMem a :=
    List.map_congr_left fun a ha => output a (List.mem_range.mp ha)
  rw [result, result, withSurroundings_phase]
  cases s.phase with
  | done => exact congrArg (fun bytes => some (Result.ok s.width s.height s.channels s.colorspace bytes)) hbytes
  | error | idle | header | decode => rfl

theorem SameOutcome.seen_eq {x y : Host.Outcome State Fault Refusal} (h : SameOutcome x y) : seen x = seen y := by
  cases h with
  | next h => rw [seen, seen, result_sameDecode h]
  | fault | refused => rfl

/-- After START nothing is left of what came before: the registers are the initial ones and no byte of OUT counts. -/
theorem startDecode_sameDecode {s t : State} (hs : s.hostq = []) (ht : t.hostq = []) (hl : s.streamLen = t.streamLen)
    (hin : ∀ a, a < s.streamLen → Memory.read s.inMem a = Memory.read t.inMem a) (hc : s.outCap = t.outCap) :
    SameDecode (startDecode s) (startDecode t) := by
  have heq : startDecode t = withSurroundings t.inMem t.outMem t.reply t.lenWritten (startDecode s) := by
    simp [startDecode, withSurroundings, hs, ht, hl, hc]
  rw [heq]
  exact .mk _ _ _ _ hs (fun a ha => (hin a ha).symm) nofun

/-- Settles O53: START puts the two states in the same place of the same decode, and every step keeps them there. -/
theorem decodesAreIndependent : Obligations.DecodesAreIndependent :=
  fun _ _ k hs ht hl hin hc => (steps_sameDecode k (startDecode_sameDecode hs ht hl hin hc)).seen_eq

end Sys2Proof.Machine

/-! PROOFS. The statements of no other family: what START and hardware reset leave alone by the model's choice. -/

namespace Sys2Proof.Machine

/-- A START that is taken, in IDLE, DONE or ERROR, answers the initial state of a decode (R182). -/
theorem step_start_of_idle_or_ended {s u : State} (hu : HostDoes .start s u)
    (hp : s.phase = .idle ∨ s.phase = .done ∨ s.phase = .error) : step s = .next (startDecode u) := by
  have hidle : s.phase.busy = false := (Phase.not_busy_iff_idle_or_ended _).mpr hp
  rw [step_start hu, hidle, if_neg Bool.false_ne_true]

/-- Settles O57: the frames of `hardReset` and of `startDecode`, field by field. -/
theorem startAndResetKeepTheRest : Obligations.StartAndResetKeepTheRest := by
  intro s u
  constructor
  case left =>
    intro hu
    exact ⟨hardReset u, step_of_hostDoes hu, hardReset_outCap u, hardReset_hostq u, hardReset_reply u⟩
  case right =>
    intro hu hp
    exact ⟨startDecode u, step_start_of_idle_or_ended hu hp, startDecode_outMem u, startDecode_outCap u,
      startDecode_hostq u, startDecode_reply u, startDecode_lenWritten u⟩

end Sys2Proof.Machine
